-- ==== Sys2Proof/Word.lean ====
section
/-! DEFINITION. The words of the block: bytes of the bus, 16-bit register values, 40-bit command words (R6, R46, R75). -/

namespace Sys2Proof

/-- One byte: a register address, the slave address, one byte on the bus, an opcode. -/
abbrev Byte := BitVec 8

/-- A RawRegisterValue as the 16-bit number `raw = MSB, LSB` with the first byte of the bus above (R6, R46). -/
abbrev Raw := BitVec 16

/-- The command word `CW[39:0]`: opcode, operand `A`, operand `B`, from the top (R75). -/
abbrev CommandWord := BitVec 40

end Sys2Proof
end

