-- ==== Sys2Proof/Syntax.lean ====
section
/-! DEFINITION. The abstract command set (R80): one constructor for each row of the opcode map (R77). -/

namespace Sys2Proof

/-- The eleven commands. `t` is a temperature in sixteenths of a degree Celsius, a mathematical integer (R7, R80), which
`Instr.wf` holds to what the 16-bit operand can express (R78); `raw`, `man` and `dev` are RawRegisterValues. -/
inductive Instr where
  /-- Read UpperLimit (R129). -/
  | rdupr
  /-- Read LowerLimit (R130). -/
  | rdlwr
  /-- Read CriticalLimit (R131). -/
  | rdcrt
  /-- Read AmbientTemperature (R132). -/
  | rdamb
  /-- Write UpperLimit (R156). -/
  | wrupr (t : Int)
  /-- Write LowerLimit (R157). -/
  | wrlwr (t : Int)
  /-- Write CriticalLimit (R158). -/
  | wrcrt (t : Int)
  /-- Construction with identity verification (R105). -/
  | verify
  /-- Temperature decode without the bus (R127). -/
  | dec (raw : Raw)
  /-- Threshold encode without the bus (R155). -/
  | enc (t : Int)
  /-- Identity comparison without the bus (R104). -/
  | idcmp (man dev : Raw)
  deriving DecidableEq, Repr

end Sys2Proof
end

