-- ==== Sys2Proof/WellFormed.lean ====
section
/-! DEFINITION. Which commands a command word can express: a temperature operand fits its 16-bit container (R78, D14). -/

namespace Sys2Proof

/-- `t` is what some 16-bit two's-complement operand reads as: -2048.0 to +2047.9375 degrees C (R78). -/
def fitsOperand (t : Int) : Bool := decide (-32768 ≤ t) && decide (t ≤ 32767)

/-- A command that a command word can express. -/
def Instr.wf : Instr → Bool
  | .rdupr => true
  | .rdlwr => true
  | .rdcrt => true
  | .rdamb => true
  | .wrupr t => fitsOperand t
  | .wrlwr t => fitsOperand t
  | .wrcrt t => fitsOperand t
  | .verify => true
  | .dec _ => true
  | .enc t => fitsOperand t
  | .idcmp _ _ => true

end Sys2Proof
end

