-- ==== Sys2Proof/Decode.lean ====
section
/-! DEFINITION. The command decoder, total on every 40-bit word (R75 to R78, R81, R82), and the encoder beside it (R85). -/

namespace Sys2Proof

/-- Why a word is no command. -/
inductive DecodeError where
  /-- `OPC` is one of the 245 reserved values (R82). -/
  | reservedOpcode (opc : Byte)
  deriving DecidableEq, Repr

/-- `OPC = CW[39:32]` (R75). -/
def opcOf (cw : CommandWord) : Byte := cw.extractLsb' 32 8

/-- `A = CW[31:16]` (R75). -/
def operandA (cw : CommandWord) : Raw := cw.extractLsb' 16 16

/-- `B = CW[15:0]` (R75). -/
def operandB (cw : CommandWord) : Raw := cw.extractLsb' 0 16

/-- `sext_16(A)`: the operand as a two's-complement integer (R7, R78). -/
def sext16 (a : Raw) : Int := a.toInt

/-- The command a word stands for, by its opcode alone (R77); ignored operands may hold any bits (R81). -/
def decodeWord (cw : CommandWord) : Except DecodeError Instr :=
  match opcOf cw with
  | 0x02#8 => .ok .rdupr
  | 0x03#8 => .ok .rdlwr
  | 0x04#8 => .ok .rdcrt
  | 0x05#8 => .ok .rdamb
  | 0x12#8 => .ok (.wrupr (sext16 (operandA cw)))
  | 0x13#8 => .ok (.wrlwr (sext16 (operandA cw)))
  | 0x14#8 => .ok (.wrcrt (sext16 (operandA cw)))
  | 0x20#8 => .ok .verify
  | 0x30#8 => .ok (.dec (operandA cw))
  | 0x31#8 => .ok (.enc (sext16 (operandA cw)))
  | 0x32#8 => .ok (.idcmp (operandA cw) (operandB cw))
  | opc => .error (.reservedOpcode opc)

/-- `CW = OPC, A, B` (R75). -/
def commandWord (opc : Byte) (a b : Raw) : CommandWord := (opc ++ a) ++ b

/-- A temperature operand as its 16-bit container (R78, R85). -/
def operandOf (t : Int) : Raw := BitVec.ofInt 16 t

/-- The word of a command; an ignored operand is assembled as zero (R77, R85). -/
def encode : Instr → CommandWord
  | .rdupr => commandWord 0x02#8 0#16 0#16
  | .rdlwr => commandWord 0x03#8 0#16 0#16
  | .rdcrt => commandWord 0x04#8 0#16 0#16
  | .rdamb => commandWord 0x05#8 0#16 0#16
  | .wrupr t => commandWord 0x12#8 (operandOf t) 0#16
  | .wrlwr t => commandWord 0x13#8 (operandOf t) 0#16
  | .wrcrt t => commandWord 0x14#8 (operandOf t) 0#16
  | .verify => commandWord 0x20#8 0#16 0#16
  | .dec raw => commandWord 0x30#8 raw 0#16
  | .enc t => commandWord 0x31#8 (operandOf t) 0#16
  | .idcmp man dev => commandWord 0x32#8 man dev

/-- The bits of a command's word that its encoding string does not mark `x`: the opcode and the used operands (R77, R81). -/
def usedBits : Instr → CommandWord
  | .rdupr => 0xFF00000000#40
  | .rdlwr => 0xFF00000000#40
  | .rdcrt => 0xFF00000000#40
  | .rdamb => 0xFF00000000#40
  | .wrupr _ => 0xFFFFFF0000#40
  | .wrlwr _ => 0xFFFFFF0000#40
  | .wrcrt _ => 0xFFFFFF0000#40
  | .verify => 0xFF00000000#40
  | .dec _ => 0xFFFFFF0000#40
  | .enc _ => 0xFFFFFF0000#40
  | .idcmp _ _ => 0xFFFFFFFFFF#40

/-- One row of the opcode map: its mnemonic, match and mask over the 40-bit word (R77, opcode_table.json). -/
structure OpcodeRow where
  mnemonic : String
  wordMatch : CommandWord
  mask : CommandWord
  deriving DecidableEq, Repr

/-- The opcode map, in the table's order (R77). -/
def opcodeTable : List OpcodeRow :=
  [ ⟨"RDUPR", 0x0200000000#40, 0xFF00000000#40⟩,
    ⟨"RDLWR", 0x0300000000#40, 0xFF00000000#40⟩,
    ⟨"RDCRT", 0x0400000000#40, 0xFF00000000#40⟩,
    ⟨"RDAMB", 0x0500000000#40, 0xFF00000000#40⟩,
    ⟨"WRUPR", 0x1200000000#40, 0xFF00000000#40⟩,
    ⟨"WRLWR", 0x1300000000#40, 0xFF00000000#40⟩,
    ⟨"WRCRT", 0x1400000000#40, 0xFF00000000#40⟩,
    ⟨"VERIFY", 0x2000000000#40, 0xFF00000000#40⟩,
    ⟨"DEC", 0x3000000000#40, 0xFF00000000#40⟩,
    ⟨"ENC", 0x3100000000#40, 0xFF00000000#40⟩,
    ⟨"IDCMP", 0x3200000000#40, 0xFF00000000#40⟩ ]

/-- A word belongs to a row when its masked bits are the row's (R77). -/
def OpcodeRow.matchesWord (r : OpcodeRow) (cw : CommandWord) : Bool := (cw &&& r.mask) == r.wordMatch

/-- The mnemonic of a command (R77, R85). -/
def mnemonicOf : Instr → String
  | .rdupr => "RDUPR"
  | .rdlwr => "RDLWR"
  | .rdcrt => "RDCRT"
  | .rdamb => "RDAMB"
  | .wrupr _ => "WRUPR"
  | .wrlwr _ => "WRLWR"
  | .wrcrt _ => "WRCRT"
  | .verify => "VERIFY"
  | .dec _ => "DEC"
  | .enc _ => "ENC"
  | .idcmp _ _ => "IDCMP"

/-- The command word of `nbits` table bits `w`: a command is ONE word of 40 bits, numbered as the table numbers them (R75);
the bits above `nbits` are zero. -/
def tableWord (nbits w : Nat) : CommandWord := BitVec.ofNat 40 (w % 2 ^ nbits)

/-- The command the decoder reads from a table word, none where it refuses. -/
def decodeTableWord (nbits w : Nat) : Option Instr :=
  match decodeWord (tableWord nbits w) with
  | .ok i => some i
  | .error _ => none

end Sys2Proof
end

