-- ==== Sys2Proof/Config.lean ====
section
/-! DEFINITION. The parameters of R5, what a bus transaction can answer (R41, R42), and the values the spec leaves open. -/

namespace Sys2Proof

/-- What `MemRead(reg, 2)` returns: two bytes, the most significant first, or `fail` (R41). -/
inductive ReadResult where
  | ok (b0 b1 : Byte)
  | fail
  deriving DecidableEq, Repr, Inhabited

/-- What `MemWrite(reg, 2, [b0, b1])` returns (R42). -/
inductive WriteResult where
  | ok
  | fail
  deriving DecidableEq, Repr, Inhabited

namespace Config

/-- `SLAVE_ADDR` (R5). -/
abbrev slaveAddr : Byte := 0x18#8
/-- `REG_UPPER` (R5, R73). -/
abbrev regUpper : Byte := 0x02#8
/-- `REG_LOWER` (R5, R73). -/
abbrev regLower : Byte := 0x03#8
/-- `REG_CRIT` (R5, R73). -/
abbrev regCrit : Byte := 0x04#8
/-- `REG_AMBIENT` (R5, R73). -/
abbrev regAmbient : Byte := 0x05#8
/-- `REG_MANUF` (R5, R73). -/
abbrev regManuf : Byte := 0x06#8
/-- `REG_DEVID` (R5, R73). -/
abbrev regDevId : Byte := 0x07#8
/-- `REG_RESOL` (R5, R73): named, and no command reaches it (R50). -/
abbrev regResol : Byte := 0x08#8
/-- `MANUF_ID`, first byte (R5). -/
abbrev manufHi : Byte := 0x00#8
/-- `MANUF_ID`, second byte (R5). -/
abbrev manufLo : Byte := 0x54#8
/-- `DEVID_HI` (R5). -/
abbrev devIdHi : Byte := 0x04#8
/-- `FLAG_MASK`, the AND mask on the most significant byte (R5). -/
abbrev flagMask : Byte := 0x1F#8
/-- `SIGN_MASK` (R5). -/
abbrev signMask : Byte := 0x10#8
/-- `NIBBLE_MASK` (R5). -/
abbrev nibbleMask : Byte := 0x0F#8
/-- `BIAS`: 256 degrees in sixteenths (R5). -/
abbrev bias : Nat := 4096
/-- `T_MIN` in sixteenths (R5). -/
abbrev tMin : Int := -4096
/-- `T_MAX` in sixteenths (R5). -/
abbrev tMax : Int := 4095

/-- FREE VALUE (R44, R54, U8): what the device answers to the `n`-th read whose answer nothing has fixed beforehand.
It has no body, so a claim about it holds for every device. DESIGN CHOICE, log entry 2. -/
opaque freeRead (n : Nat) (slave reg : Byte) : ReadResult

/-- FREE VALUE (R42, R54): how the `n`-th write whose outcome nothing has fixed beforehand ends.
DESIGN CHOICE, log entry 2. -/
opaque freeWrite (n : Nat) (slave reg b0 b1 : Byte) : WriteResult

/-- `BUS_INSTANCE` (R5, R25): supplied by the host, read by no rule. DESIGN CHOICE, log entry 10. -/
opaque busInstance : Nat

/-- `BUS_CLOCK` in hertz (R5, R25): supplied by the host, read by no rule. DESIGN CHOICE, log entry 10. -/
opaque busClock : Nat

/-- `HOST_ROUNDING` (R5, R160, U3): how the host brings degrees to sixteenths, before it forms an operand; read by no rule
of the block. DESIGN CHOICE, log entry 10. -/
opaque hostRounding (degrees : Rat) : Int

end Config
end Sys2Proof
end

