-- ==== Sys2Proof/Machine/State.lean ====
section
/-! DEFINITION. The machine's state: the block's one bit, what lives for one command, the device behind the bus, the host. -/

namespace Sys2Proof.Machine

/-- The five failure conditions a command can end with (R180); status codes 6 to 15 have no name, so none can be produced. -/
inductive Condition where
  /-- Identity verification failed; only `VERIFY` raises it (R181). -/
  | deviceNotFound
  /-- An accessor's one transaction failed (R182). -/
  | busError
  /-- The temperature is outside -4096 to +4095 sixteenths (R183). -/
  | valueOutOfRange
  /-- An accessor was issued with `READY = 0` (R184). -/
  | notReady
  /-- The word's opcode is reserved (R185). -/
  | illegalCommand
  deriving DecidableEq, Repr

/-- The response of one command, a sum type with no value in its failure arm (R27, R186, D18). -/
inductive Response where
  /-- `OK` without a value: `VERIFY` and the three `WR*`. -/
  | okUnit
  /-- `OK` with a temperature: `DEC` and the four `RD*`; `NEG`, `MAG[12:0]`, `T[15:0]` (R71). -/
  | okTemp (neg : Bool) (mag : BitVec 13) (t : BitVec 16)
  /-- `OK` with an encoding: `ENC`. -/
  | okRaw (raw : Raw)
  /-- `OK` with a verdict: `IDCMP`. -/
  | okMatch (isMatch : Bool)
  /-- A failure: its condition and the `INFO` byte. -/
  | fail (c : Condition) (info : Byte)
  deriving DecidableEq, Repr

/-- The two modes, told apart by `READY` alone (R200). -/
inductive Mode where
  | unverified
  | verified
  deriving DecidableEq, Repr

/-- One transaction as the event history writes it: `R(reg) -> …` or `W(reg, [b0, b1]) -> …` (R59). -/
inductive BusEvent where
  | read (reg : Byte) (r : ReadResult)
  | write (reg b0 b1 : Byte) (w : WriteResult)
  deriving DecidableEq, Repr

/-- A transaction the block has asked for and is inside of (R41, R42). -/
inductive BusRequest where
  | read (reg : Byte)
  | write (reg b0 b1 : Byte)
  deriving DecidableEq, Repr

/-- Whether a transaction ends: with its result, or never (R45; the third answer is U6's own). -/
inductive Reply (α : Type) where
  | ends (r : α)
  | never
  deriving DecidableEq, Repr

/-- Bytes of the reference device's register file, in one canonical form: addresses strictly rising, and no entry that
holds what an unlisted address reads as. -/
abbrev Memory := List Host.Cell

/-- What an unlisted address of the register file reads as. DESIGN CHOICE, log entry 7. -/
def Memory.unlisted : BitVec 8 := 0x00#8

/-- The canonical form, for a memory whose addresses all lie at `lo` or above. -/
def Memory.wfFrom : Nat → Memory → Bool
  | _, [] => true
  | lo, (a, b) :: m => decide (lo ≤ a) && (b != Memory.unlisted) && Memory.wfFrom (a + 1) m

/-- The canonical form of a memory. -/
def Memory.wf (m : Memory) : Bool := Memory.wfFrom 0 m

/-- What answers behind the bus transport. It is not the block's state (R28, R54). -/
inductive Device where
  /-- The unconstrained oracle (R44, R54): the replies the environment has already fixed, each list oldest first, and after
  them free values, numbered by `draws`. -/
  | oracle (reads : List (Reply ReadResult)) (writes : List (Reply WriteResult)) (draws : Nat)
  /-- The reference device of D25: a register file at 0x02 to 0x08 that answers with what it holds. -/
  | registerFile (mem : Memory)
  deriving DecidableEq, Repr

/-- The device's memory is in canonical form. -/
def Device.wf : Device → Bool
  | .oracle _ _ _ => true
  | .registerFile m => Memory.wf m

/-- What the host does between two responses: issue a command, or the reset event (R9, R86, R220). -/
inductive HostInput where
  | command (cw : CommandWord)
  | reset
  deriving DecidableEq, Repr

/-- What the host has had back for one thing it did (R53). -/
inductive Done where
  /-- A command and its response. -/
  | command (cw : CommandWord) (r : Response)
  /-- A command whose transaction never ends, so that no response comes (R45, U6). -/
  | unanswered (cw : CommandWord)
  /-- A reset event, which has no response (R220). -/
  | reset
  deriving DecidableEq, Repr

/-- The block, the device behind its bus, and the host in front of it. -/
structure State where
  /-- `READY`, the only state of the block (R20). -/
  ready : Bool
  /-- The response of the command being executed; gone when it is returned (R21, R26, R27). -/
  response : Option Response
  /-- The transaction the block is inside of for ever, when the transport never answers it (R45, U6). -/
  waiting : Option BusRequest
  /-- What answers behind the bus (R28, R44, D25). -/
  device : Device
  /-- The bus traffic so far, oldest first (R59). -/
  events : List BusEvent
  /-- What the host has still to issue, oldest first (R9, R22). -/
  pending : List HostInput
  /-- What the host has issued and had back, oldest first (R53); no command reads it. -/
  history : List Done
  deriving DecidableEq, Repr

/-- The mode, computed from `READY` (R200). -/
def State.mode (s : State) : Mode := if s.ready then .verified else .unverified

/-- Between commands: no response under way and no transaction open (R31, R221). -/
def State.idle (s : State) : Bool := s.response.isNone && s.waiting.isNone

/-- After reset: `READY = 0`, nothing pending, the device an oracle of which nothing is fixed (R31, R220, R221).
The host's and the model's own fields: DESIGN CHOICE, log entries 1, 2 and 3. -/
def State.reset : State :=
  { ready := false
    response := none
    waiting := none
    device := .oracle [] [] 0
    events := []
    pending := []
    history := [] }

/-- Why a step can stop. -/
inductive Fault where
  /-- Raised by `step` alone, in a state whose last command's transaction never ends: the block is inside that command for
  ever and there is no step for it (R45, U6). Safe: a machine that stops proves nothing of a run. -/
  | transportNeverAnswers
  deriving DecidableEq, Repr

/-- Why an instruction has no meaning. -/
inductive Refusal where
  /-- Answered by `exec` for an instruction without a meaning yet; no arm of this model answers it. Safe. -/
  | notModelled (mnemonic : String)
  deriving DecidableEq, Repr

end Sys2Proof.Machine
end

