-- ==== Sys2Proof/Machine/Operands.lean ====
section
/-! DEFINITION. Operands and data formats: byte order, the fields of a RawRegisterValue, the temperature decode and encode. -/

namespace Sys2Proof.Machine

/-- The RawRegisterValue of two bytes in bus order: the first is the most significant (R6, R46). -/
def pair (b0 b1 : Byte) : Raw := b0 ++ b1

/-- `MSB = raw[15:8]`, the byte the bus carries first (R46). -/
def msb (raw : Raw) : Byte := raw.extractLsb' 8 8

/-- `LSB = raw[7:0]`, the byte the bus carries second (R46). -/
def lsb (raw : Raw) : Byte := raw.extractLsb' 0 8

/-- `raw[15:13]`, the three flag bits (R29, R70); no command reads them, and which alert is which bit is left open (N8). -/
def flagBits (raw : Raw) : BitVec 3 := raw.extractLsb' 13 3

/-- `F13 = raw[12:0]`, the sign bit and the twelve magnitude bits (R13, R70). -/
def f13 (raw : Raw) : BitVec 13 := raw.extractLsb' 0 13

/-- A decoded temperature: the flag, the magnitude and the signed value, in sixteenths of a degree C (R13, R121). -/
structure Reading where
  neg : Bool
  mag : Nat
  t : Int
  deriving DecidableEq, Repr

/-- `decode(raw)`: mask the flag bits, test the sign bit, assemble the magnitude, subtract the bias (R74, R121, R122). -/
def decodeTemp (raw : Raw) : Reading :=
  let m := msb raw &&& Config.flagMask
  if m &&& Config.signMask ≠ 0#8 then
    let mp := m &&& Config.nibbleMask
    let r16 := mp.toNat * 256 + (lsb raw).toNat
    let mag := Config.bias - r16
    { neg := true, mag := mag, t := -(mag : Int) }
  else
    let r16 := m.toNat * 256 + (lsb raw).toNat
    { neg := false, mag := r16, t := (r16 : Int) }

/-- `in_range(t)`: the representable range, both ends included (R152). -/
def inRange (t : Int) : Bool := decide (Config.tMin ≤ t) && decide (t ≤ Config.tMax)

/-- `encode(t)` for `t` in range: bias a negative `t`, split into nibble and byte, set the sign bit, flag bits 0 (R151).
Every command tests `inRange` first; what this gives outside the range is used by none (log entry 13). -/
def encodeTemp (t : Int) : Raw :=
  let sign : Nat := if t < 0 then 1 else 0
  let v : Nat := (if t < 0 then t + 4096 else t).toNat
  let hi := (sign <<< 4) ||| (v >>> 8)
  let lo := v &&& 0xFF
  pair (BitVec.ofNat 8 hi) (BitVec.ofNat 8 lo)

end Sys2Proof.Machine
end

