-- ==== Sys2Proof/Machine/Flags.lean ====
section
/-! DEFINITION. The one-bit results and the response fields: `MATCH`, `NEG`, `STATUS`, `INFO` (R23, R27, R101, R180, R187). -/

namespace Sys2Proof.Machine

/-- `MATCH = idmatch(man, dev)`: three byte comparisons, no bit masked, the second DeviceId byte unused (R101). -/
def idmatch (man dev : Raw) : Bool :=
  msb man == Config.manufHi && lsb man == Config.manufLo && msb dev == Config.devIdHi

/-- The response of a decode: `NEG` as it is, `MAG` in 13 bits, `T` in 16 bits two's complement (R27, R71). -/
def tempResponse (d : Reading) : Response :=
  .okTemp d.neg (BitVec.ofNat 13 d.mag) (BitVec.ofInt 16 d.t)

/-- The code of a condition (R180). -/
def Condition.code : Condition → BitVec 4
  | .deviceNotFound => 1#4
  | .busError => 2#4
  | .valueOutOfRange => 3#4
  | .notReady => 4#4
  | .illegalCommand => 5#4

/-- The `STATUS` field of a response (R27, R180). -/
def Response.status : Response → BitVec 4
  | .okUnit => 0#4
  | .okTemp _ _ _ => 0#4
  | .okRaw _ => 0#4
  | .okMatch _ => 0#4
  | .fail c _ => c.code

/-- The `INFO` field of a response: 0x00 with `OK` (R27, R187). -/
def Response.info : Response → Byte
  | .okUnit => 0x00#8
  | .okTemp _ _ _ => 0x00#8
  | .okRaw _ => 0x00#8
  | .okMatch _ => 0x00#8
  | .fail _ info => info

end Sys2Proof.Machine
end

