-- ==== Sys2Proof/Machine/Ops.lean ====
section
/-! DEFINITION. The named operations: memory, the device, the two bus primitives, responding, raising, reset, the host's port. -/

namespace Sys2Proof.Machine

/-- The byte at an address. -/
def Memory.read : Memory → Nat → BitVec 8
  | [], _ => Memory.unlisted
  | (a', b') :: m, a => if a = a' then b' else Memory.read m a

/-- Store a byte, keeping the canonical form: storing what an unlisted address reads as removes the entry. -/
def Memory.write : Memory → Nat → BitVec 8 → Memory
  | [], a, b => if b = Memory.unlisted then [] else [(a, b)]
  | (a', b') :: m, a, b =>
    if a < a' then
      (if b = Memory.unlisted then (a', b') :: m else (a, b) :: (a', b') :: m)
    else if a = a' then
      (if b = Memory.unlisted then m else (a, b) :: m)
    else
      (a', b') :: Memory.write m a b

/-- Where the register file keeps the first byte of a register; the second follows. DESIGN CHOICE, log entry 7. -/
def registerCell (reg : Byte) : Nat := 2 * reg.toNat

/-- The registers the reference device has: 0x02 to 0x08 (D25). -/
def registerFileHas (reg : Byte) : Bool := decide (2 ≤ reg.toNat) && decide (reg.toNat ≤ 8)

/-- The reference device answers a read with what it holds (D25); elsewhere nothing acknowledges (log entry 7). -/
def registerFileRead (slave reg : Byte) (m : Memory) : ReadResult :=
  if slave = Config.slaveAddr ∧ registerFileHas reg = true then
    .ok (Memory.read m (registerCell reg)) (Memory.read m (registerCell reg + 1))
  else .fail

/-- The registers the reference device stores to: 0x02, 0x03, 0x04 (D25). -/
def registerFileStores (reg : Byte) : Bool := reg == Config.regUpper || reg == Config.regLower || reg == Config.regCrit

/-- The reference device holds the two bytes of a successful write to 0x02, 0x03 or 0x04 (D25); elsewhere nothing
acknowledges (log entry 7). -/
def registerFileWrite (slave reg b0 b1 : Byte) (m : Memory) : WriteResult × Memory :=
  if slave = Config.slaveAddr ∧ registerFileStores reg = true then
    (.ok, Memory.write (Memory.write m (registerCell reg) b0) (registerCell reg + 1) b1)
  else (.fail, m)

/-- What the device does with `readRegister(slave, reg, 2)` (R41, R44). -/
def Device.read (slave reg : Byte) : Device → Reply ReadResult × Device
  | .oracle (r :: rs) ws n => (r, .oracle rs ws n)
  | .oracle [] ws n => (.ends (Config.freeRead n slave reg), .oracle [] ws (n + 1))
  | .registerFile m => (.ends (registerFileRead slave reg m), .registerFile m)

/-- What the device does with `writeRegister(slave, reg, [b0, b1])` (R42, R161). -/
def Device.write (slave reg b0 b1 : Byte) : Device → Reply WriteResult × Device
  | .oracle rs (w :: ws) n => (w, .oracle rs ws n)
  | .oracle rs [] n => (.ends (Config.freeWrite n slave reg b0 b1), .oracle rs [] (n + 1))
  | .registerFile m =>
    (.ends (registerFileWrite slave reg b0 b1 m).1, .registerFile (registerFileWrite slave reg b0 b1 m).2)

/-- `MemRead(reg, 2)`: one transaction with slave 0x18, recorded when it ends; one that never ends leaves the block inside
it (R8, R41, R43, R45, R59). -/
def memRead (reg : Byte) (s : State) : Reply ReadResult × State :=
  match Device.read Config.slaveAddr reg s.device with
  | (.ends r, d) => (.ends r, { s with device := d, events := s.events ++ [.read reg r] })
  | (.never, d) => (.never, { s with device := d, waiting := some (.read reg) })

/-- `MemWrite(reg, 2, [b0, b1])`, the first byte first (R8, R42, R43, R45, R46, R59). -/
def memWrite (reg b0 b1 : Byte) (s : State) : Reply WriteResult × State :=
  match Device.write Config.slaveAddr reg b0 b1 s.device with
  | (.ends w, d) => (.ends w, { s with device := d, events := s.events ++ [.write reg b0 b1 w] })
  | (.never, d) => (.never, { s with device := d, waiting := some (.write reg b0 b1) })

/-- `respond(fields)`: the command ends with this response (R8, R27). -/
def respond (r : Response) (s : State) : State := { s with response := some r }

/-- `raise C(info)`, the block's whole exception mechanism: the response carries the condition and the info byte, and nothing
else happens; there is no handler and so nothing to return from (R8, R186, R193). -/
def raise (c : Condition) (info : Byte) (s : State) : State := respond (.fail c info) s

/-- `READY <- v` (R8, R20). -/
def setReady (v : Bool) (s : State) : State := { s with ready := v }

/-- What the host does next, and what it does after that (R9, R22, R231). -/
def nextInput (s : State) : Option (HostInput × List HostInput) :=
  match s.pending with
  | [] => none
  | x :: rest => some (x, rest)

/-- The block takes a command from the host's port; nothing of an earlier response is left (R21, R26, R31). -/
def takeCommand (rest : List HostInput) (s : State) : State := { s with pending := rest, response := none }

/-- What the host has had back for a command. -/
def doneOf (cw : CommandWord) : Option Response → Done
  | some r => .command cw r
  | none => .unanswered cw

/-- The response is returned to the host and is then gone (R21, R27, R53). -/
def deliver (cw : CommandWord) (s : State) : State :=
  { s with response := none, history := s.history ++ [doneOf cw s.response] }

/-- A word that is no command, in either mode (R82, R185). -/
def illegalCommand (s : State) : State := raise .illegalCommand 0x00#8 s

/-- The reset event: `READY <- 0`, no bus transaction, the device untouched (R220). -/
def resetEvent (rest : List HostInput) (s : State) : State :=
  { setReady false s with pending := rest, history := s.history ++ [.reset] }

/-- With no command at its port the block waits (R186, R213, R221). -/
def idleStep (s : State) : State := s

/-- The outcome of a command with its response returned. -/
def returnToHost (cw : CommandWord) : Host.Outcome State Fault Refusal → Host.Outcome State Fault Refusal
  | .next s => .next (deliver cw s)
  | .fault r => .fault r
  | .refused r => .refused r

end Sys2Proof.Machine
end

