-- ==== Sys2Proof/Machine/Identity.lean ====
section
/-! DEFINITION. The identity family: `IDCMP` and `VERIFY` (R100 to R109). -/

namespace Sys2Proof.Machine

/-- `IDCMP man, dev`: the comparator alone; a mismatch is `OK` with `MATCH = 0` (R104). -/
def execIdcmp (man dev : Raw) (s : State) : Host.Outcome State Fault Refusal :=
  .next (respond (.okMatch (idmatch man dev)) s)

/-- A failed construction: `READY <- 0` and `DeviceNotFound` with the slave address (R105, R181, R187). -/
def constructionFails (s : State) : State := raise .deviceNotFound Config.slaveAddr (setReady false s)

/-- The verdict of `VERIFY` on the two identity words (R105). -/
def constructionVerdict (man dev : Raw) (s : State) : State :=
  if idmatch man dev then respond .okUnit (setReady true s) else constructionFails s

/-- The two reads of `VERIFY`, ManufacturerId first, the second issued unless the first failed (R105, R106, R107). -/
def verifyIdentity (s : State) : State :=
  match memRead Config.regManuf s with
  | (.never, s1) => s1
  | (.ends .fail, s1) => constructionFails s1
  | (.ends (.ok m0 m1), s1) =>
    match memRead Config.regDevId s1 with
    | (.never, s2) => s2
    | (.ends .fail, s2) => constructionFails s2
    | (.ends (.ok d0 d1), s2) => constructionVerdict (pair m0 m1) (pair d0 d1) s2

/-- `VERIFY`: construction with identity verification, a fresh one whatever `READY` holds (R105, R108). -/
def execVerify (s : State) : Host.Outcome State Fault Refusal := .next (verifyIdentity s)

end Sys2Proof.Machine
end

