-- ==== Sys2Proof/Machine/ReadAccess.lean ====
section
/-! DEFINITION. The decode family: `DEC` and the four read accessors (R127 to R132). -/

namespace Sys2Proof.Machine

/-- `DEC raw`: the decoder alone, in either mode (R127). -/
def execDec (raw : Raw) (s : State) : Host.Outcome State Fault Refusal :=
  .next (respond (tempResponse (decodeTemp raw)) s)

/-- `rdtemp(reg)`: the gate, one bus read, the decode (R128). -/
def rdtemp (reg : Byte) (s : State) : State :=
  if s.ready then
    match memRead reg s with
    | (.never, s1) => s1
    | (.ends .fail, s1) => raise .busError 0x00#8 s1
    | (.ends (.ok b0 b1), s1) => respond (tempResponse (decodeTemp (pair b0 b1))) s1
  else raise .notReady 0x00#8 s

/-- `RDUPR` (R129). -/
def execRdupr (s : State) : Host.Outcome State Fault Refusal := .next (rdtemp Config.regUpper s)

/-- `RDLWR` (R130). -/
def execRdlwr (s : State) : Host.Outcome State Fault Refusal := .next (rdtemp Config.regLower s)

/-- `RDCRT` (R131). -/
def execRdcrt (s : State) : Host.Outcome State Fault Refusal := .next (rdtemp Config.regCrit s)

/-- `RDAMB` (R132). -/
def execRdamb (s : State) : Host.Outcome State Fault Refusal := .next (rdtemp Config.regAmbient s)

end Sys2Proof.Machine
end

