-- ==== Sys2Proof/Machine/WriteAccess.lean ====
section
/-! DEFINITION. The encode family: `ENC` and the three write accessors (R155 to R159). -/

namespace Sys2Proof.Machine

/-- `ENC t`: the range check and the encoder, in either mode (R155). -/
def execEnc (t : Int) (s : State) : Host.Outcome State Fault Refusal :=
  .next (if inRange t then respond (.okRaw (encodeTemp t)) s else raise .valueOutOfRange 0x00#8 s)

/-- `wrtemp(reg)`: the gate, the range check, the encoder, one bus write, tested in this order (R159, R190). -/
def wrtemp (reg : Byte) (t : Int) (s : State) : State :=
  if s.ready then
    if inRange t then
      match memWrite reg (msb (encodeTemp t)) (lsb (encodeTemp t)) s with
      | (.never, s1) => s1
      | (.ends .fail, s1) => raise .busError 0x00#8 s1
      | (.ends .ok, s1) => respond .okUnit s1
    else raise .valueOutOfRange 0x00#8 s
  else raise .notReady 0x00#8 s

/-- `WRUPR t` (R156). -/
def execWrupr (t : Int) (s : State) : Host.Outcome State Fault Refusal := .next (wrtemp Config.regUpper t s)

/-- `WRLWR t` (R157). -/
def execWrlwr (t : Int) (s : State) : Host.Outcome State Fault Refusal := .next (wrtemp Config.regLower t s)

/-- `WRCRT t` (R158). -/
def execWrcrt (t : Int) (s : State) : Host.Outcome State Fault Refusal := .next (wrtemp Config.regCrit t s)

end Sys2Proof.Machine
end

