-- ==== Sys2Proof/Machine/Dispatch.lean ====
section
/-! DEFINITION. One arm for each constructor of `Instr`, each a call of its meaning. -/

namespace Sys2Proof.Machine

/-- What a command does (R9: one command from issue to response). -/
def exec (i : Instr) (s : State) : Host.Outcome State Fault Refusal :=
  match i with
  -- The read accessors (R129 to R132).
  | .rdupr => Sys2Proof.Machine.execRdupr s
  | .rdlwr => Sys2Proof.Machine.execRdlwr s
  | .rdcrt => Sys2Proof.Machine.execRdcrt s
  | .rdamb => Sys2Proof.Machine.execRdamb s
  -- The write accessors (R156 to R158).
  | .wrupr t => Sys2Proof.Machine.execWrupr t s
  | .wrlwr t => Sys2Proof.Machine.execWrlwr t s
  | .wrcrt t => Sys2Proof.Machine.execWrcrt t s
  -- Construction (R105).
  | .verify => Sys2Proof.Machine.execVerify s
  -- The pure datapath functions (R104, R127, R155).
  | .dec raw => Sys2Proof.Machine.execDec raw s
  | .enc t => Sys2Proof.Machine.execEnc t s
  | .idcmp man dev => Sys2Proof.Machine.execIdcmp man dev s

end Sys2Proof.Machine
end

