-- ==== Sys2Proof/Machine/Step.lean ====
section
/-! DEFINITION. One step: one command of the host's from issue to response, or one reset event, or waiting (R9, R53, R221). -/

namespace Sys2Proof.Machine

/-- One step. Inside a transaction that never ends there is no step (R45); with nothing issued the block waits (R221); a word
that is no command ends with `IllegalCommand` before anything is gated (R185, R190). -/
def step (s : State) : Host.Outcome State Fault Refusal :=
  match s.waiting with
  | some _ => .fault .transportNeverAnswers
  | none =>
    match nextInput s with
    | none => .next (idleStep s)
    | some (.reset, rest) => .next (resetEvent rest s)
    | some (.command cw, rest) =>
      match decodeWord cw with
      | .error _ => .next (deliver cw (illegalCommand (takeCommand rest s)))
      | .ok i => returnToHost cw (exec i (takeCommand rest s))

/-- The state in which the host issues this table word next: the word before what it has still to issue, and no open
transaction, which is all that taking it needs (log entry 4). -/
def State.withFetchWord (s : State) (nbits w : Nat) : State :=
  { s with pending := .command (tableWord nbits w) :: s.pending, waiting := none }

end Sys2Proof.Machine
end

