-- ==== Sys2Proof/Machine/Assembler.lean ====
section
/-! DEFINITION. The spec's assembler syntax: mnemonics, operand spellings and the pseudo-command `CONSTRUCT` (R85, R86). -/

namespace Sys2Proof.Machine

/-- The three spellings of a temperature operand (R85). -/
inductive TempLiteral where
  /-- A decimal integer of sixteenths, as `-256`. -/
  | sixteenths (n : Int)
  /-- The 16-bit hexadecimal container, as `0xFF00`. -/
  | container (a : BitVec 16)
  /-- Degrees with a `C` suffix, as `-16.0C`, counted in ten-thousandths of a degree. -/
  | degreesC (tenThousandths : Int)
  deriving DecidableEq, Repr

/-- An integer of sixteenths an operand can hold (R78). -/
def checkOperand (t : Int) : Option Int := if fitsOperand t then some t else none

/-- The temperature a literal spells: degrees only for a multiple of 0.0625, which is 625 ten-thousandths (R85). -/
def TempLiteral.value : TempLiteral → Option Int
  | .sixteenths n => checkOperand n
  | .container a => some (sext16 a)
  | .degreesC d => if d % 625 = 0 then checkOperand (d / 625) else none

/-- `CONSTRUCT`: a reset of the block, then `VERIFY` (R86). -/
def construct : List HostInput := [.reset, .command (encode .verify)]

/-- The value of one digit, decimal or hexadecimal, in either case (DESIGN CHOICE, log entry 12). -/
def digitValue (c : Char) : Option Nat :=
  let n := c.toNat
  if 48 ≤ n ∧ n ≤ 57 then some (n - 48)
  else if 65 ≤ n ∧ n ≤ 70 then some (n - 55)
  else if 97 ≤ n ∧ n ≤ 102 then some (n - 87)
  else none

/-- A number from its digits, the first the most significant, in a base. -/
def numberFrom (base : Nat) : Nat → List Char → Option Nat
  | acc, [] => some acc
  | acc, c :: cs =>
    match digitValue c with
    | some d => if d < base then numberFrom base (acc * base + d) cs else none
    | none => none

/-- A number with at least one digit. -/
def number (base : Nat) : List Char → Option Nat
  | [] => none
  | c :: cs => numberFrom base 0 (c :: cs)

/-- A 16-bit word written `0x` and hexadecimal digits (R85). -/
def hexWord : List Char → Option (BitVec 16)
  | '0' :: 'x' :: cs =>
    match number 16 cs with
    | some n => if n < 65536 then some (BitVec.ofNat 16 n) else none
    | none => none
  | _ => none

/-- The text up to a character, and what follows it if it occurs. -/
def cutAt (sep : Char) : List Char → List Char × Option (List Char)
  | [] => ([], none)
  | c :: cs => if c = sep then ([], some cs) else (c :: (cutAt sep cs).1, (cutAt sep cs).2)

/-- Ten-thousandths of a degree from a decimal fraction of one to four digits (DESIGN CHOICE, log entry 12). -/
def fraction (cs : List Char) : Option Nat :=
  match cs with
  | [_] => (number 10 cs).map (· * 1000)
  | [_, _] => (number 10 cs).map (· * 100)
  | [_, _, _] => (number 10 cs).map (· * 10)
  | [_, _, _, _] => number 10 cs
  | _ => none

/-- An unsigned temperature: whole sixteenths, or degrees with a `C` suffix (R85). -/
def unsignedTemp (cs : List Char) : Option TempLiteral :=
  match cutAt 'C' cs with
  | (digits, none) => (number 10 digits).map fun n => .sixteenths n
  | (body, some []) =>
    match cutAt '.' body with
    | (whole, none) => (number 10 whole).map fun w => .degreesC (w * 10000)
    | (whole, some part) =>
      match number 10 whole, fraction part with
      | some w, some f => some (.degreesC (w * 10000 + f))
      | _, _ => none
  | (_, some (_ :: _)) => none

/-- The negative of a decimal literal. -/
def TempLiteral.negate : TempLiteral → Option TempLiteral
  | .sixteenths n => some (.sixteenths (-n))
  | .degreesC d => some (.degreesC (-d))
  | .container _ => none

/-- A temperature literal from its text (R85). -/
def tempLiteral (cs : List Char) : Option TempLiteral :=
  match hexWord cs with
  | some a => some (.container a)
  | none =>
    match cs with
    | '-' :: rest => (unsignedTemp rest).bind TempLiteral.negate
    | _ => unsignedTemp cs

/-- The temperature a text spells. -/
def tempOperand (cs : List Char) : Option Int := (tempLiteral cs).bind TempLiteral.value

/-- Text without its spaces, those inside an operand too: `4 00` is read as `400`. R85 gives no such spelling: DESIGN CHOICE,
log entry 12. -/
def withoutSpaces (cs : List Char) : List Char := cs.filter fun c => c != ' '

/-- What follows a mnemonic: no operand, one, or two separated by a comma (R85). -/
def operandTexts : Option (List Char) → List (List Char)
  | none => []
  | some cs =>
    match withoutSpaces cs with
    | [] => []
    | body =>
      match cutAt ',' body with
      | (a, none) => [a]
      | (a, some b) => [a, b]

/-- The command a mnemonic and its operand texts spell (R85). -/
def assembleCommand (mnemonic : List Char) (operands : List (List Char)) : Option Instr :=
  match operands with
  | [] =>
    if mnemonic = "RDUPR".toList then some .rdupr
    else if mnemonic = "RDLWR".toList then some .rdlwr
    else if mnemonic = "RDCRT".toList then some .rdcrt
    else if mnemonic = "RDAMB".toList then some .rdamb
    else if mnemonic = "VERIFY".toList then some .verify
    else none
  | [a] =>
    if mnemonic = "WRUPR".toList then (tempOperand a).map .wrupr
    else if mnemonic = "WRLWR".toList then (tempOperand a).map .wrlwr
    else if mnemonic = "WRCRT".toList then (tempOperand a).map .wrcrt
    else if mnemonic = "ENC".toList then (tempOperand a).map .enc
    else if mnemonic = "DEC".toList then (hexWord a).map .dec
    else none
  | [a, b] =>
    if mnemonic = "IDCMP".toList then
      match hexWord a, hexWord b with
      | some man, some dev => some (.idcmp man dev)
      | _, _ => none
    else none
  | _ => none

/-- What one line of assembler text makes the host do (R85, R86). -/
def assemble (line : List Char) : Option (List HostInput) :=
  match cutAt ' ' line with
  | (mnemonic, rest) =>
    if mnemonic = "CONSTRUCT".toList ∧ operandTexts rest = [] then some construct
    else (assembleCommand mnemonic (operandTexts rest)).map fun i => [.command (encode i)]

end Sys2Proof.Machine
end

