-- ==== Sys2Proof/Machine/Reference.lean ====
section
/-! DEFINITION. The document's own formulas, in degrees Celsius, beside which the machine's integers are to be read: the left
columns of R121 and R151, and the reading of the 16-bit container (R71). No command computes with them. -/

namespace Sys2Proof.Machine

/-- A count of sixteenths in degrees C: the value is `t / 16` exactly (R7, R71). -/
def degrees (t : Int) : Rat := (t : Rat) / 16

/-- The document's decode of two bytes: whether it is a negative reading, and its "Result" in degrees (R121, left column). -/
def documentDecode (hi lo : Byte) : Bool × Rat :=
  let m := hi &&& Config.flagMask
  if m &&& Config.signMask ≠ 0#8 then
    (true, 256 - (((m &&& Config.nibbleMask).toNat : Rat) * 16 + (lo.toNat : Rat) / 16))
  else
    (false, (m.toNat : Rat) * 16 + (lo.toNat : Rat) / 16)

/-- The signed temperature of a decoded result: minus the result for a negative reading (R122, 90_conflicts.md C1). -/
def documentSigned (d : Bool × Rat) : Rat := if d.1 then -d.2 else d.2

/-- The document's biased value: `T + 256` for a negative `T` (R151, left column). -/
def documentBiased (temp : Rat) : Rat := if temp < 0 then temp + 256 else temp

/-- The document's most significant byte: the sign bit 0x10 and the high nibble `floor(v / 16)` (R151, left column). -/
def documentHighByte (temp : Rat) : Int :=
  (if temp < 0 then 16 else 0) + (documentBiased temp / 16).floor

/-- The document's low byte: `(v mod 16) * 16` (R151, left column). -/
def documentLowByte (temp : Rat) : Rat :=
  (documentBiased temp - 16 * ((documentBiased temp / 16).floor : Rat)) * 16

/-- `T[15:4]`, whole degrees rounded down (R71). -/
def wholeDegrees (t : BitVec 16) : Int := (t.extractLsb' 4 12).toInt

/-- `T[3:0]`, sixteenths (R71). -/
def sixteenthsOf (t : BitVec 16) : Nat := (t.extractLsb' 0 4).toNat

end Sys2Proof.Machine
end

