-- ==== Sys2Proof/Safety.lean ====
section
/-! DEFINITION. What counts as a right run: the spec's tables of outcomes written as relations, apart from the machine, and the
properties of states that claims speak of. -/

namespace Sys2Proof.Machine

/-- The eleven opcodes of the map (R77); the other 245 values are reserved (R82). -/
def definedOpcodes : List Byte :=
  [0x02#8, 0x03#8, 0x04#8, 0x05#8, 0x12#8, 0x13#8, 0x14#8, 0x20#8, 0x30#8, 0x31#8, 0x32#8]

/-- The identity comparison in its masked form (R101). -/
def identityHolds (man dev : Raw) : Bool := man == 0x0054#16 && (dev &&& 0xFF00#16) == 0x0400#16

/-- The response of a decode by the closed forms: `NEG = raw[12]`, `MAG = |T|`, `T` the sign extension of `raw[12:0]` (R123). -/
def closedTemp (raw : Raw) : Response :=
  .okTemp (raw.getLsbD 12) (BitVec.ofNat 13 (f13 raw).toInt.natAbs) ((f13 raw).signExtend 16)

/-- The encoding by its closed form: `t mod 8192` (R153). -/
def closedRaw (t : Int) : Raw := BitVec.ofNat 16 (t % 8192).toNat

/-- The read accessors and the register each reads (R129 to R132). -/
inductive ReadsRegister : Instr → Byte → Prop where
  | upper : ReadsRegister .rdupr 0x02#8
  | lower : ReadsRegister .rdlwr 0x03#8
  | critical : ReadsRegister .rdcrt 0x04#8
  | ambient : ReadsRegister .rdamb 0x05#8

/-- The write accessors, the register each writes and the temperature (R156 to R158). -/
inductive WritesRegister : Instr → Byte → Int → Prop where
  | upper (t : Int) : WritesRegister (.wrupr t) 0x02#8 t
  | lower (t : Int) : WritesRegister (.wrlwr t) 0x03#8 t
  | critical (t : Int) : WritesRegister (.wrcrt t) 0x04#8 t

/-- The seven accessors, which require `READY = 1` (R184). -/
def gated : Instr → Bool
  | .rdupr => true
  | .rdlwr => true
  | .rdcrt => true
  | .rdamb => true
  | .wrupr _ => true
  | .wrlwr _ => true
  | .wrcrt _ => true
  | .verify => false
  | .dec _ => false
  | .enc _ => false
  | .idcmp _ _ => false

/-- Which responses each command can end with: its own value on `OK`, and the conditions of its row (R27, R191). -/
def mayRespond : Instr → Response → Bool
  | .idcmp _ _, .okMatch _ => true
  | .verify, .okUnit => true
  | .verify, .fail .deviceNotFound _ => true
  | .dec _, .okTemp _ _ _ => true
  | .rdupr, .okTemp _ _ _ => true
  | .rdupr, .fail .busError _ => true
  | .rdupr, .fail .notReady _ => true
  | .rdlwr, .okTemp _ _ _ => true
  | .rdlwr, .fail .busError _ => true
  | .rdlwr, .fail .notReady _ => true
  | .rdcrt, .okTemp _ _ _ => true
  | .rdcrt, .fail .busError _ => true
  | .rdcrt, .fail .notReady _ => true
  | .rdamb, .okTemp _ _ _ => true
  | .rdamb, .fail .busError _ => true
  | .rdamb, .fail .notReady _ => true
  | .enc _, .okRaw _ => true
  | .enc _, .fail .valueOutOfRange _ => true
  | .wrupr _, .okUnit => true
  | .wrupr _, .fail .busError _ => true
  | .wrupr _, .fail .valueOutOfRange _ => true
  | .wrupr _, .fail .notReady _ => true
  | .wrlwr _, .okUnit => true
  | .wrlwr _, .fail .busError _ => true
  | .wrlwr _, .fail .valueOutOfRange _ => true
  | .wrlwr _, .fail .notReady _ => true
  | .wrcrt _, .okUnit => true
  | .wrcrt _, .fail .busError _ => true
  | .wrcrt _, .fail .valueOutOfRange _ => true
  | .wrcrt _, .fail .notReady _ => true
  | _, _ => false

/-- `Answers i before es after r`: the tables of R51, R106, R128, R159 and R191 as rows. With `READY = before`, command `i` may
cause the bus events `es`, leave `READY = after` and respond `r`, or not respond when a transaction never ends (R45). The four rows of
a transaction that never ends are the model's, with no response and `READY` as it was (log entries 3 and 11). -/
inductive Answers : Instr → Bool → List BusEvent → Bool → Option Response → Prop where
  | idcmp (man dev : Raw) (v : Bool) : Answers (.idcmp man dev) v [] v (some (.okMatch (identityHolds man dev)))
  | dec (raw : Raw) (v : Bool) : Answers (.dec raw) v [] v (some (closedTemp raw))
  | encInRange (t : Int) (v : Bool) (lo : -4096 ≤ t) (hi : t ≤ 4095) :
      Answers (.enc t) v [] v (some (.okRaw (closedRaw t)))
  | encOutOfRange (t : Int) (v : Bool) (out : t < -4096 ∨ 4095 < t) :
      Answers (.enc t) v [] v (some (.fail .valueOutOfRange 0x00#8))
  | verifyFirstFails (v : Bool) :
      Answers .verify v [.read 0x06#8 .fail] false (some (.fail .deviceNotFound 0x18#8))
  | verifySecondFails (v : Bool) (m0 m1 : Byte) :
      Answers .verify v [.read 0x06#8 (.ok m0 m1), .read 0x07#8 .fail] false (some (.fail .deviceNotFound 0x18#8))
  | verifyMatches (v : Bool) (d1 : Byte) :
      Answers .verify v [.read 0x06#8 (.ok 0x00#8 0x54#8), .read 0x07#8 (.ok 0x04#8 d1)] true (some .okUnit)
  | verifyDiffers (v : Bool) (m0 m1 d0 d1 : Byte) (differs : ¬(m0 = 0x00#8 ∧ m1 = 0x54#8 ∧ d0 = 0x04#8)) :
      Answers .verify v [.read 0x06#8 (.ok m0 m1), .read 0x07#8 (.ok d0 d1)] false
        (some (.fail .deviceNotFound 0x18#8))
  | verifyFirstNeverEnds (v : Bool) : Answers .verify v [] v none
  | verifySecondNeverEnds (v : Bool) (m0 m1 : Byte) : Answers .verify v [.read 0x06#8 (.ok m0 m1)] v none
  | readNotReady (i : Instr) (reg : Byte) (reads : ReadsRegister i reg) :
      Answers i false [] false (some (.fail .notReady 0x00#8))
  | readFails (i : Instr) (reg : Byte) (reads : ReadsRegister i reg) :
      Answers i true [.read reg .fail] true (some (.fail .busError 0x00#8))
  | readEnds (i : Instr) (reg b0 b1 : Byte) (reads : ReadsRegister i reg) :
      Answers i true [.read reg (.ok b0 b1)] true (some (closedTemp (pair b0 b1)))
  | readNeverEnds (i : Instr) (reg : Byte) (reads : ReadsRegister i reg) : Answers i true [] true none
  | writeNotReady (i : Instr) (reg : Byte) (t : Int) (writes : WritesRegister i reg t) :
      Answers i false [] false (some (.fail .notReady 0x00#8))
  | writeOutOfRange (i : Instr) (reg : Byte) (t : Int) (writes : WritesRegister i reg t) (out : t < -4096 ∨ 4095 < t) :
      Answers i true [] true (some (.fail .valueOutOfRange 0x00#8))
  | writeFails (i : Instr) (reg : Byte) (t : Int) (writes : WritesRegister i reg t) (lo : -4096 ≤ t) (hi : t ≤ 4095) :
      Answers i true [.write reg (msb (closedRaw t)) (lsb (closedRaw t)) .fail] true
        (some (.fail .busError 0x00#8))
  | writeEnds (i : Instr) (reg : Byte) (t : Int) (writes : WritesRegister i reg t) (lo : -4096 ≤ t) (hi : t ≤ 4095) :
      Answers i true [.write reg (msb (closedRaw t)) (lsb (closedRaw t)) .ok] true (some .okUnit)
  | writeNeverEnds (i : Instr) (reg : Byte) (t : Int) (writes : WritesRegister i reg t) (lo : -4096 ≤ t) (hi : t ≤ 4095) :
      Answers i true [] true none

/-- `Served before d es after`: one thing the host did, the bus events it caused and `READY` around it (R51, R82, R220). -/
inductive Served : Bool → Done → List BusEvent → Bool → Prop where
  | reset (v : Bool) : Served v .reset [] false
  | reserved (v : Bool) (cw : CommandWord) (undefinedOpcode : opcOf cw ∉ definedOpcodes) :
      Served v (.command cw (.fail .illegalCommand 0x00#8)) [] v
  | answered (v w : Bool) (cw : CommandWord) (i : Instr) (es : List BusEvent) (r : Response)
      (decodes : decodeWord cw = .ok i) (row : Answers i v es w (some r)) : Served v (.command cw r) es w
  | unanswered (v w : Bool) (cw : CommandWord) (i : Instr) (es : List BusEvent)
      (decodes : decodeWord cw = .ok i) (row : Answers i v es w none) : Served v (.unanswered cw) es w

/-- `Account ready history events`: from reset on, the bus traffic is the concatenation, in the order the host issued them, of
the rows of its commands, and `READY` is what those rows leave (R20, R53, R59). -/
inductive Account : Bool → List Done → List BusEvent → Prop where
  | nothing : Account false [] []
  | more (v w : Bool) (h : List Done) (es fs : List BusEvent) (d : Done)
      (before : Account v h es) (row : Served v d fs w) : Account w (h ++ [d]) (es ++ fs)

/-- THE RUN SO FAR IS RIGHT: nothing of a response is left between commands, and `READY`, the history and the bus traffic
account for each other. -/
def State.accounted (s : State) : Prop := s.response = none ∧ Account s.ready s.history s.events

/-- What one more entry of the history makes of the verdict: a reset clears it, an answered `VERIFY` decides it, nothing else
touches it (R20, R108, R201; for a `VERIFY` that never ends log entry 11). -/
def verdictAfter (v : Bool) : Done → Bool
  | .reset => false
  | .unanswered _ => v
  | .command cw r =>
    match decodeWord cw with
    | .ok .verify => r == .okUnit
    | _ => v

/-- The verdict of the last answered `VERIFY` since the last reset, false when there is none (R20). -/
def verdictOf (h : List Done) : Bool := h.foldl verdictAfter false

/-- Every accessor of a history was gated by the verdict of what stands before it: one that was answered was refused with
`NotReady` exactly when that verdict is false, and one without a response had passed the gate (R184, R200; log entry 3). -/
def GatedHistory (h : List Done) : Prop :=
  ∀ (before after : List Done) (cw : CommandWord) (i : Instr), decodeWord cw = .ok i → gated i = true →
    (∀ r, h = before ++ .command cw r :: after → (r = .fail .notReady 0x00#8 ↔ verdictOf before = false)) ∧
    (h = before ++ .unanswered cw :: after → verdictOf before = true)

/-- A transaction the block may issue: reads of 0x02 to 0x07, writes of 0x02 to 0x04 with the flag bits 0 (R50, R83). -/
def legalEvent : BusEvent → Bool
  | .read reg _ => decide (2 ≤ reg.toNat) && decide (reg.toNat ≤ 7)
  | .write reg b0 _ _ => decide (2 ≤ reg.toNat) && decide (reg.toNat ≤ 4) && (b0 &&& 0xE0#8) == 0#8

/-- Every transaction so far was one the block may issue (R50). -/
def State.trafficLegal (s : State) : Prop := ∀ e ∈ s.events, legalEvent e = true

/-- The register of the reference device as the two bytes it holds, the most significant first (D25). -/
def registerOf (m : Memory) (reg : Byte) : Raw :=
  pair (Memory.read m (registerCell reg)) (Memory.read m (registerCell reg + 1))

/-- The same state with the records of another before its own: neither the bus traffic nor the history is state that a command
reads (R21, R24). -/
def State.recalling (s r : State) : State := { s with events := r.events ++ s.events, history := r.history ++ s.history }

end Sys2Proof.Machine
end

