-- ==== Sys2Proof/Certificates/Slice0/Obligations.lean ====
section
/-! DEFINITION. The statements for the provers, each from the numbered rules its docstring names. -/

open Sys2Proof Sys2Proof.Machine

-- ENCODING

/-- R75, R77, R78, R85. Decoding the word of a command gives the command back, for every command a word can express and every
value of its operands. -/
def Obligations.DecodeOfEncodeIsTheCommand : Prop :=
  ∀ i : Instr, i.wf = true → decodeWord (encode i) = .ok i

/-- R77, R81, R85. The command of a word is one a word can express, and its own word is the given one with the ignored bits
cleared. -/
def Obligations.EncodeOfDecodeClearsIgnoredBits : Prop :=
  ∀ (cw : CommandWord) (i : Instr), decodeWord cw = .ok i → i.wf = true ∧ encode i = cw &&& usedBits i

/-- R81. Two words that agree in the bits a command uses are the same command, and step does the same with both but for the
word it records. -/
def Obligations.IgnoredOperandBitsNeverMatter : Prop :=
  ∀ (cw cw' : CommandWord) (i : Instr), decodeWord cw = .ok i → cw &&& usedBits i = cw' &&& usedBits i →
    decodeWord cw' = .ok i ∧
    ∀ (s : State) (rest : List HostInput), s.waiting = none →
      ∃ u : State,
        step { s with pending := .command cw :: rest } = .next (deliver cw u) ∧
        step { s with pending := .command cw' :: rest } = .next (deliver cw' u)

/-- R77. Every word that decodes belongs to exactly one row of the opcode map, the row of its command. -/
def Obligations.EveryCommandHasOneOpcodeRow : Prop :=
  ∀ (cw : CommandWord) (i : Instr), decodeWord cw = .ok i →
    ∃ row ∈ opcodeTable, row.mnemonic = mnemonicOf i ∧ row.matchesWord cw = true ∧
      ∀ other ∈ opcodeTable, other.matchesWord cw = true → other = row

/-- 95_test_vectors.md section 2.4 and the words of R104, R129, R156. Words written out from the encodings of R77. -/
def Obligations.WrittenWordsDecode : Prop :=
  decodeWord 0x0200000000#40 = .ok .rdupr ∧
  decodeWord 0x05FFFFFFFF#40 = .ok .rdamb ∧
  decodeWord 0x1201E80000#40 = .ok (.wrupr 488) ∧
  decodeWord 0x13FF000000#40 = .ok (.wrlwr (-256)) ∧
  decodeWord 0x20DEADBEEF#40 = .ok .verify ∧
  decodeWord 0x300190FFFF#40 = .ok (.dec 0x0190#16) ∧
  decodeWord 0x31FF000000#40 = .ok (.enc (-256)) ∧
  decodeWord 0x3200540400#40 = .ok (.idcmp 0x0054#16 0x0400#16) ∧
  decodeWord 0x0600000000#40 = .error (.reservedOpcode 0x06#8)

-- STEP, RESET, RESERVED WORDS

/-- R22, R53, D6. With a command at the port and no transaction open, a step is exec of the decoded command at the state
that has taken it; then the response is returned to the host, recorded, and gone (log entries 1 and 9). -/
def Obligations.StepRunsTheDecodedCommand : Prop :=
  ∀ (s : State) (cw : CommandWord) (rest : List HostInput) (i : Instr),
    s.waiting = none → s.pending = .command cw :: rest → decodeWord cw = .ok i →
    ∃ u : State, exec i { s with pending := rest, response := none } = .next u ∧
      step s = .next { u with response := none, history := u.history ++ [doneOf cw u.response] }

/-- R82. The reserved opcodes are the 245 values the rule lists; every other opcode is a command. A reserved word ends with
`IllegalCommand(0x00)`: no transaction, no change of `READY`, no value. -/
def Obligations.ReservedOpcodeIsIllegalCommand : Prop :=
  (∀ opc : Byte, opc ∉ definedOpcodes ↔
    (opc.toNat ≤ 0x01 ∨ (0x06 ≤ opc.toNat ∧ opc.toNat ≤ 0x11) ∨ (0x15 ≤ opc.toNat ∧ opc.toNat ≤ 0x1F) ∨
      (0x21 ≤ opc.toNat ∧ opc.toNat ≤ 0x2F) ∨ 0x33 ≤ opc.toNat)) ∧
  ((List.range 256).filter fun n => !(definedOpcodes.contains (BitVec.ofNat 8 n))).length = 245 ∧
  (∀ cw : CommandWord, opcOf cw ∈ definedOpcodes → ∃ i, decodeWord cw = .ok i) ∧
  (∀ (s : State) (cw : CommandWord) (rest : List HostInput),
    s.waiting = none → s.pending = .command cw :: rest → opcOf cw ∉ definedOpcodes →
    step s = .next { s with
      response := none
      pending := rest
      history := s.history ++ [.command cw (.fail .illegalCommand 0x00#8)] })

/-- R220. The reset event sets `READY` to 0 and nothing else: no transaction, the device untouched. (Taking the event from the
host's list and recording it are the model's own, log entry 1.) -/
def Obligations.ResetEventClearsReadyOnly : Prop :=
  ∀ (s : State) (rest : List HostInput), s.waiting = none → s.pending = .reset :: rest →
    step s = .next { s with ready := false, pending := rest, history := s.history ++ [.reset] }

/-- R31, R200, R221. What reset leaves: `READY = 0`, mode `UNVERIFIED`, no response pending; and in the model's own fields no
command at the port, no transaction open, none recorded (the model's choice, log entries 1 and 3). -/
def Obligations.ResetLeavesTheBlockUnverified : Prop :=
  State.reset.ready = false ∧ State.reset.mode = .unverified ∧ State.reset.response = none ∧
  State.reset.waiting = none ∧ State.reset.pending = [] ∧ State.reset.events = []

/-- R221 (and log entry 6). With nothing issued the block waits, and the state stays as it is. -/
def Obligations.StepWaitsForACommand : Prop :=
  ∀ s : State, s.waiting = none → s.pending = [] → step s = .next s

/-- R45, U6 (and log entry 3). A state inside a transaction that never ends has no step, and that is the only stop of the
machine: every other state steps. -/
def Obligations.OnlyAHungTransactionStopsTheMachine : Prop :=
  ∀ s : State,
    (∀ q, s.waiting = some q → step s = .fault .transportNeverAnswers) ∧
    (s.waiting = none → ∃ t, step s = .next t)

/-- R86. `CONSTRUCT` is a reset, then `VERIFY`: its first step clears `READY` and touches neither bus nor device, and its
second is `VERIFY`. -/
def Obligations.ConstructIsResetThenVerify : Prop :=
  assemble "CONSTRUCT".toList = some construct ∧
  ∀ (s : State) (rest : List HostInput), s.waiting = none → s.pending = construct ++ rest →
    ∃ u v : State, step s = .next u ∧ u.ready = false ∧ u.device = s.device ∧ u.events = s.events ∧
      u.pending = .command 0x2000000000#40 :: rest ∧
      exec .verify { u with pending := rest, response := none } = .next v ∧
      step u = .next (deliver 0x2000000000#40 v)

-- THE IDENTITY FAMILY

/-- R101. `idmatch` compares three bytes for equality; equivalently the manufacturer word is 0x0054 and the masked device word
0x0400. -/
def Obligations.IdmatchComparesThreeBytes : Prop :=
  ∀ man dev : Raw,
    (idmatch man dev = true ↔ man.extractLsb' 8 8 = 0x00#8 ∧ man.extractLsb' 0 8 = 0x54#8 ∧
      dev.extractLsb' 8 8 = 0x04#8) ∧
    (idmatch man dev = true ↔ man = 0x0054#16 ∧ dev &&& 0xFF00#16 = 0x0400#16)

/-- R102. `idmatch` is 1 exactly for man = 0x0054 and dev from 0x0400 to 0x04FF. -/
def Obligations.IdmatchHoldsForOneManufacturerAndOneHighByte : Prop :=
  ∀ man dev : Raw, idmatch man dev = true ↔ man = 0x0054#16 ∧ 0x0400 ≤ dev.toNat ∧ dev.toNat ≤ 0x04FF

/-- R104. `IDCMP` responds the verdict, in either mode, and changes nothing else; its opcode and its two examples. -/
def Obligations.IdcmpRespondsTheVerdict : Prop :=
  (∀ (man dev : Raw) (s : State),
    exec (.idcmp man dev) s = .next { s with response := some (.okMatch (idmatch man dev)) } ∧
    opcOf (encode (.idcmp man dev)) = 0x32#8) ∧
  encode (.idcmp 0x0054#16 0x0400#16) = 0x3200540400#40 ∧ idmatch 0x0054#16 0x0400#16 = true ∧
  encode (.idcmp 0x0054#16 0x0500#16) = 0x3200540500#40 ∧ idmatch 0x0054#16 0x0500#16 = false

/-- R105, R106. Every outcome of `VERIFY`, by what the two reads return: the response, `READY`, the bus events, and nothing
else changed. -/
def Obligations.VerifyOutcomesByItsTwoReads : Prop :=
  ∀ s : State,
    (∀ d1, Device.read 0x18#8 0x06#8 s.device = (.ends .fail, d1) →
      exec .verify s = .next { s with
        ready := false
        response := some (.fail .deviceNotFound 0x18#8)
        device := d1
        events := s.events ++ [.read 0x06#8 .fail] }) ∧
    (∀ m0 m1 d1, Device.read 0x18#8 0x06#8 s.device = (.ends (.ok m0 m1), d1) →
      (∀ d2, Device.read 0x18#8 0x07#8 d1 = (.ends .fail, d2) →
        exec .verify s = .next { s with
          ready := false
          response := some (.fail .deviceNotFound 0x18#8)
          device := d2
          events := s.events ++ [.read 0x06#8 (.ok m0 m1), .read 0x07#8 .fail] }) ∧
      (∀ d0 e1 d2, Device.read 0x18#8 0x07#8 d1 = (.ends (.ok d0 e1), d2) →
        exec .verify s = .next { s with
          ready := decide (m0 = 0x00#8 ∧ m1 = 0x54#8 ∧ d0 = 0x04#8)
          response := some (if m0 = 0x00#8 ∧ m1 = 0x54#8 ∧ d0 = 0x04#8 then .okUnit
            else .fail .deviceNotFound 0x18#8)
          device := d2
          events := s.events ++ [.read 0x06#8 (.ok m0 m1), .read 0x07#8 (.ok d0 e1)] }))

-- THE DECODE FAMILY

/-- R121, R122. The decode computes the document's formula: the same flag, `MAG / 16` its result in degrees, `T / 16` the signed
temperature. -/
def Obligations.DecodeIsTheDocumentsFormula : Prop :=
  ∀ raw : Raw,
    documentDecode (msb raw) (lsb raw) = ((decodeTemp raw).neg, degrees ((decodeTemp raw).mag : Int)) ∧
    documentSigned (documentDecode (msb raw) (lsb raw)) = degrees (decodeTemp raw).t

/-- R123. The closed forms of the decode: it is the sign extension of 13 bits, and the flag bits have no effect. -/
def Obligations.DecodeIsThirteenBitSignExtension : Prop :=
  ∀ raw : Raw,
    (decodeTemp raw).neg = raw.getLsbD 12 ∧
    (decodeTemp raw).t = (f13 raw).toInt ∧
    (decodeTemp raw).t = ((raw.extractLsb' 0 12).toNat : Int) - 4096 * ((raw.getLsbD 12).toNat : Int) ∧
    (decodeTemp raw).mag = (decodeTemp raw).t.natAbs ∧
    BitVec.ofInt 16 (decodeTemp raw).t = (f13 raw).signExtend 16 ∧
    decodeTemp raw = decodeTemp (raw &&& 0x1FFF#16)

/-- R71, R124. Every decoded temperature fits its containers exactly, and they satisfy `T = MAG` or `T = -MAG`. -/
def Obligations.ContainersHoldTheDecodedTemperature : Prop :=
  ∀ raw : Raw,
    -4096 ≤ (decodeTemp raw).t ∧ (decodeTemp raw).t ≤ 4095 ∧
    (BitVec.ofInt 16 (decodeTemp raw).t).toInt = (decodeTemp raw).t ∧
    (BitVec.ofNat 13 (decodeTemp raw).mag).toNat = (decodeTemp raw).mag ∧
    (decodeTemp raw).t = (if (decodeTemp raw).neg then -((decodeTemp raw).mag : Int) else ((decodeTemp raw).mag : Int)) ∧
    ((decodeTemp raw).mag = 4096 ↔ f13 raw = 0x1000#13)

/-- R71. `T[15:4]` and `T[3:0]` are whole degrees rounded down and sixteenths: sixteen times the one plus the other is `T`. -/
def Obligations.ContainerSplitsIntoDegreesAndSixteenths : Prop :=
  ∀ t : BitVec 16, t.toInt = 16 * wholeDegrees t + (sixteenthsOf t : Int) ∧ sixteenthsOf t < 16

/-- R84, R125. Two RawRegisterValues decode to the same temperature exactly when they agree below the flag bits: no flag bit
matters, and no two of the 8192 fields share a temperature. -/
def Obligations.DecodeTellsApartExactlyTheThirteenBits : Prop :=
  ∀ raw raw' : Raw, (decodeTemp raw).t = (decodeTemp raw').t ↔ f13 raw = f13 raw'

/-- R127. `DEC` responds the decode, in either mode, and changes nothing else; its opcode, its example,
and the flag bits of its operand without effect. -/
def Obligations.DecRespondsTheDecode : Prop :=
  (∀ (raw : Raw) (s : State),
    exec (.dec raw) s = .next { s with response := some (.okTemp (decodeTemp raw).neg
      (BitVec.ofNat 13 (decodeTemp raw).mag) (BitVec.ofInt 16 (decodeTemp raw).t)) } ∧
    opcOf (encode (.dec raw)) = 0x30#8) ∧
  (∀ raw : Raw, decodeTemp raw = decodeTemp (raw &&& 0x1FFF#16)) ∧
  encode (.dec 0x0190#16) = 0x3001900000#40 ∧ decodeTemp 0x0190#16 = ⟨false, 400, 400⟩

/-- R128. The common body of the four read accessors: the gate, one fresh read of their register, `BusError` or the decode, and
nothing else changed. -/
def Obligations.ReadAccessorsReadOnceAndDecode : Prop :=
  ∀ (s : State), ∀ x ∈ [(Instr.rdupr, 0x02#8), (Instr.rdlwr, 0x03#8), (Instr.rdcrt, 0x04#8), (Instr.rdamb, 0x05#8)],
    (s.ready = false → exec x.1 s = .next { s with response := some (.fail .notReady 0x00#8) }) ∧
    (s.ready = true →
      (∀ d, Device.read 0x18#8 x.2 s.device = (.ends .fail, d) →
        exec x.1 s = .next { s with
          response := some (.fail .busError 0x00#8)
          device := d
          events := s.events ++ [.read x.2 .fail] }) ∧
      (∀ b0 b1 d, Device.read 0x18#8 x.2 s.device = (.ends (.ok b0 b1), d) →
        exec x.1 s = .next { s with
          response := some (.okTemp (decodeTemp (pair b0 b1)).neg (BitVec.ofNat 13 (decodeTemp (pair b0 b1)).mag)
            (BitVec.ofInt 16 (decodeTemp (pair b0 b1)).t))
          device := d
          events := s.events ++ [.read x.2 (.ok b0 b1)] }))

/-- R44, R54. The device is unconstrained: whatever state the block is in, a read accessor that runs can be answered with any
two bytes or with a failure, and responds the decode of those bytes or `BusError`. -/
def Obligations.AnyReadAnswerIsPossible : Prop :=
  ∀ (s : State), ∀ x ∈ [(Instr.rdupr, 0x02#8), (Instr.rdlwr, 0x03#8), (Instr.rdcrt, 0x04#8), (Instr.rdamb, 0x05#8)],
    s.ready = true → ∀ a : ReadResult, ∃ (d : Device) (t : State), exec x.1 { s with device := d } = .next t ∧
      t.events = s.events ++ [.read x.2 a] ∧
      t.response = some (match a with
        | .ok b0 b1 => .okTemp (decodeTemp (pair b0 b1)).neg (BitVec.ofNat 13 (decodeTemp (pair b0 b1)).mag)
          (BitVec.ofInt 16 (decodeTemp (pair b0 b1)).t)
        | .fail => .fail .busError 0x00#8)

-- THE ENCODE FAMILY

/-- R152. The range check is `-4096 <= t <= 4095`; on a 16-bit operand it holds exactly when `A[15:12]` is 0b0000 or 0b1111. -/
def Obligations.RangeCheckIsTheTopNibble : Prop :=
  (∀ t : Int, inRange t = true ↔ -4096 ≤ t ∧ t ≤ 4095) ∧
  (∀ a : Raw, inRange (sext16 a) = true ↔ a.extractLsb' 12 4 = 0x0#4 ∨ a.extractLsb' 12 4 = 0xF#4)

/-- R151. The encode computes the document's bytes: the sign bit with `floor(v / 16)`, and `(v mod 16) * 16`. -/
def Obligations.EncodeIsTheDocumentsFormula : Prop :=
  ∀ t : Int, -4096 ≤ t → t ≤ 4095 →
    documentHighByte (degrees t) = ((msb (encodeTemp t)).toNat : Int) ∧
    documentLowByte (degrees t) = ((lsb (encodeTemp t)).toNat : Rat) ∧
    flagBits (encodeTemp t) = 0#3

/-- R153. The closed forms of the encode: `t mod 8192`, the low 13 bits of the container, flag bits 0, the sign bit set exactly
for a negative `t`, and zero encoded as `[0x00, 0x00]`. -/
def Obligations.EncodeIsModulo8192 : Prop :=
  (∀ t : Int, -4096 ≤ t → t ≤ 4095 →
    ((encodeTemp t).toNat : Int) = t % 8192 ∧
    f13 (encodeTemp t) = f13 (operandOf t) ∧
    flagBits (encodeTemp t) = 0#3 ∧
    ((encodeTemp t).getLsbD 12 = true ↔ t < 0)) ∧
  encodeTemp 0 = pair 0x00#8 0x00#8

/-- R154(a). Decoding the encoding of a temperature in range gives the temperature, its sign and its magnitude exactly. -/
def Obligations.DecodeOfEncodedTemperature : Prop :=
  ∀ t : Int, -4096 ≤ t → t ≤ 4095 →
    (decodeTemp (encodeTemp t)).t = t ∧ (decodeTemp (encodeTemp t)).neg = decide (t < 0) ∧
    (decodeTemp (encodeTemp t)).mag = t.natAbs

/-- R154(b). Encoding the temperature of any RawRegisterValue gives it back with its flag bits cleared. -/
def Obligations.EncodeOfDecodedTemperature : Prop :=
  ∀ raw : Raw, encodeTemp (decodeTemp raw).t = raw &&& 0x1FFF#16

/-- R155. `ENC` responds the encoding of a temperature in range and `ValueOutOfRange` otherwise, in either mode, and changes
nothing else; its opcode and its example. -/
def Obligations.EncRespondsTheEncoding : Prop :=
  (∀ (t : Int) (s : State),
    exec (.enc t) s = .next { s with
      response := some (if -4096 ≤ t ∧ t ≤ 4095 then .okRaw (encodeTemp t) else .fail .valueOutOfRange 0x00#8) } ∧
    opcOf (encode (.enc t)) = 0x31#8) ∧
  encode (.enc (-256)) = 0x31FF000000#40 ∧ encodeTemp (-256) = 0x1F00#16 ∧ encodeTemp (-1) = 0x1FFF#16

/-- R159, R190. The common body of the three write accessors: the gate, then the range check, then one write of the encoded
bytes, most significant first, `BusError` or `OK`, and nothing else changed. -/
def Obligations.WriteAccessorsCheckEncodeAndWriteOnce : Prop :=
  ∀ (s : State) (t : Int), ∀ x ∈ [(Instr.wrupr t, 0x02#8), (Instr.wrlwr t, 0x03#8), (Instr.wrcrt t, 0x04#8)],
    (s.ready = false → exec x.1 s = .next { s with response := some (.fail .notReady 0x00#8) }) ∧
    (s.ready = true → (t < -4096 ∨ 4095 < t) →
      exec x.1 s = .next { s with response := some (.fail .valueOutOfRange 0x00#8) }) ∧
    (s.ready = true → -4096 ≤ t → t ≤ 4095 →
      ∀ w d, Device.write 0x18#8 x.2 ((encodeTemp t).extractLsb' 8 8) ((encodeTemp t).extractLsb' 0 8) s.device =
        (.ends w, d) →
        exec x.1 s = .next { s with
          response := some (match w with
            | .ok => .okUnit
            | .fail => .fail .busError 0x00#8)
          device := d
          events := s.events ++
            [.write x.2 ((encodeTemp t).extractLsb' 8 8) ((encodeTemp t).extractLsb' 0 8) w] })

/-- R9, R42. Whatever state the block is in, a write accessor that runs can be answered `ok` or `fail`, and responds `OK` or
`BusError`. -/
def Obligations.AnyWriteAnswerIsPossible : Prop :=
  ∀ (s : State) (t : Int), ∀ x ∈ [(Instr.wrupr t, 0x02#8), (Instr.wrlwr t, 0x03#8), (Instr.wrcrt t, 0x04#8)],
    s.ready = true → -4096 ≤ t → t ≤ 4095 → ∀ w : WriteResult, ∃ (d : Device) (u : State),
      exec x.1 { s with device := d } = .next u ∧
      u.events = s.events ++ [.write x.2 (msb (encodeTemp t)) (lsb (encodeTemp t)) w] ∧
      u.response = some (match w with
        | .ok => .okUnit
        | .fail => .fail .busError 0x00#8)

-- ALL COMMANDS

/-- R45, U6 (and log entries 3 and 11). When a transaction never ends, the command records no event of it, gives no response,
leaves `READY` as it was, and the block is inside that transaction. -/
def Obligations.HungTransactionLeavesTheBlockInside : Prop :=
  ∀ (s : State) (d : Device),
    (∀ x ∈ [(Instr.rdupr, 0x02#8), (Instr.rdlwr, 0x03#8), (Instr.rdcrt, 0x04#8), (Instr.rdamb, 0x05#8)],
      s.ready = true → Device.read 0x18#8 x.2 s.device = (.never, d) →
      exec x.1 s = .next { s with device := d, waiting := some (.read x.2) }) ∧
    (∀ t : Int, ∀ x ∈ [(Instr.wrupr t, 0x02#8), (Instr.wrlwr t, 0x03#8), (Instr.wrcrt t, 0x04#8)],
      s.ready = true → -4096 ≤ t → t ≤ 4095 →
      Device.write 0x18#8 x.2 (msb (encodeTemp t)) (lsb (encodeTemp t)) s.device = (.never, d) →
      exec x.1 s = .next { s with
        device := d
        waiting := some (.write x.2 (msb (encodeTemp t)) (lsb (encodeTemp t))) }) ∧
    (Device.read 0x18#8 0x06#8 s.device = (.never, d) →
      exec .verify s = .next { s with device := d, waiting := some (.read 0x06#8) }) ∧
    (∀ m0 m1 d1, Device.read 0x18#8 0x06#8 s.device = (.ends (.ok m0 m1), d1) →
      Device.read 0x18#8 0x07#8 d1 = (.never, d) →
      exec .verify s = .next { s with
        device := d
        events := s.events ++ [.read 0x06#8 (.ok m0 m1)]
        waiting := some (.read 0x07#8) })

/-- R184. With `READY = 0` the seven accessors end at once with `NotReady` and change nothing; the other four commands never
end with it. -/
def Obligations.AccessorsRequireReady : Prop :=
  (∀ (i : Instr) (s : State), gated i = true → s.ready = false →
    exec i s = .next { s with response := some (.fail .notReady 0x00#8) }) ∧
  (∀ (i : Instr) (s t : State) (info : Byte), gated i = false → s.response = none → exec i s = .next t →
    t.response ≠ some (.fail .notReady info))

/-- R27, R191. Every response of a command is of its row: its own value on `OK`, or one of its conditions. -/
def Obligations.CommandsRespondOnlyWithTheirRow : Prop :=
  ∀ (i : Instr) (s t : State) (r : Response),
    s.response = none → exec i s = .next t → t.response = some r → mayRespond i r = true

/-- R27, R45. Every command answers a next state, with exactly one response unless its transaction never ends (that it may never
end is log entry 3). -/
def Obligations.EveryCommandRespondsUnlessTheTransportHangs : Prop :=
  ∀ (i : Instr) (s : State), s.response = none → s.waiting = none →
    ∃ t : State, exec i s = .next t ∧
      ((∃ r, t.response = some r) ∧ t.waiting = none ∨ t.response = none ∧ ∃ q, t.waiting = some q)

/-- R187. `INFO` is 0x18 with `DeviceNotFound` and 0x00 with every other status, in every response a step returns. -/
def Obligations.InfoIsTheSlaveAddressOnlyWithDeviceNotFound : Prop :=
  ∀ (s t : State) (cw : CommandWord) (r : Response), step s = .next t →
    t.history = s.history ++ [.command cw r] →
    r.info = (if r.status = 0x1#4 then 0x18#8 else 0x00#8)

/-- R188. A command that fails has changed nothing of the block but the `READY` that `VERIFY` clears; one that ends with
`NotReady` or `ValueOutOfRange` has issued no transaction at all. -/
def Obligations.FailuresArePrecise : Prop :=
  ∀ (i : Instr) (s t : State) (c : Condition) (info : Byte),
    s.response = none → exec i s = .next t → t.response = some (.fail c info) →
    t.ready = (if i = .verify then false else s.ready) ∧ t.waiting = s.waiting ∧
    ((c = .notReady ∨ c = .valueOutOfRange) → t.device = s.device ∧ t.events = s.events)

/-- THE FRAME of every command (R20, R49, R51, R161, R186; log entry 1 for the host's fields). What is still to issue and what
was had back stay; `READY` stays but for `VERIFY`; the bus traffic only grows; `IDCMP`, `DEC` and `ENC` leave device, traffic
and transaction alone. -/
def Obligations.CommandsLeaveTheRestUnchanged : Prop :=
  ∀ (i : Instr) (s t : State), exec i s = .next t →
    t.pending = s.pending ∧ t.history = s.history ∧
    (i ≠ .verify → t.ready = s.ready) ∧
    (∃ es, t.events = s.events ++ es) ∧
    ((∃ man dev, i = .idcmp man dev) ∨ (∃ raw, i = .dec raw) ∨ (∃ x, i = .enc x) →
      t.device = s.device ∧ t.events = s.events ∧ t.waiting = s.waiting)

/-- R51, D25 (and log entry 7). THE FRAME of the reference device's memory: a write accessor changes no byte but the two of the
register it names, and every other command changes none. -/
def Obligations.RegisterFileBytesElsewhereAreUnchanged : Prop :=
  ∀ (s t : State) (m : Memory) (i : Instr), s.device = .registerFile m → exec i s = .next t →
    ∃ m', t.device = .registerFile m' ∧
      (∀ (reg : Byte) (x : Int), WritesRegister i reg x →
        ∀ a : Nat, a ≠ registerCell reg → a ≠ registerCell reg + 1 → Memory.read m' a = Memory.read m a) ∧
      ((∀ (reg : Byte) (x : Int), ¬ WritesRegister i reg x) → ∀ a : Nat, Memory.read m' a = Memory.read m a)

/-- R154, D25. The round trip through the bus: on the reference device a verified block that writes a threshold in range and
reads it back responds exactly that temperature. -/
def Obligations.ThresholdReadsBackFromTheReferenceDevice : Prop :=
  ∀ (s : State) (m : Memory) (t : Int), s.device = .registerFile m → Memory.wf m = true → s.ready = true →
    -4096 ≤ t → t ≤ 4095 →
    ∀ x ∈ [(Instr.wrupr t, Instr.rdupr), (Instr.wrlwr t, Instr.rdlwr), (Instr.wrcrt t, Instr.rdcrt)],
      ∃ u v : State, exec x.1 s = .next u ∧ u.response = some .okUnit ∧ exec x.2 u = .next v ∧
        v.response = some (.okTemp (decide (t < 0)) (BitVec.ofNat 13 t.natAbs) (BitVec.ofInt 16 t))

-- THE WHOLE MACHINE

/-- R201. Mode changes: a reset enters `UNVERIFIED`; a `VERIFY` that ends `OK` enters `VERIFIED`, one that ends `DeviceNotFound`
enters `UNVERIFIED`; no other command and no failure changes the mode. -/
def Obligations.OnlyResetAndVerifyChangeTheMode : Prop :=
  ∀ s t : State, step s = .next t →
    (∀ rest, s.pending = .reset :: rest → t.mode = .unverified) ∧
    (∀ cw rest, s.pending = .command cw :: rest → decodeWord cw = .ok .verify →
      (t.history = s.history ++ [.command cw .okUnit] → t.mode = .verified) ∧
      (∀ info, t.history = s.history ++ [.command cw (.fail .deviceNotFound info)] → t.mode = .unverified)) ∧
    (t.mode ≠ s.mode → (∃ rest, s.pending = .reset :: rest) ∨
      ∃ cw rest, s.pending = .command cw :: rest ∧ decodeWord cw = .ok .verify)

/-- R51, R82, R106, R128, R159. REFINEMENT: whatever a step does with what the host issued is a row of `Served`: the response,
`READY` after it, and the bus events in order. The rows are the spec's tables, and beside them the model's four rows for a
transaction that never ends, no response and `READY` as it was (log entries 3 and 11, DEDUCED). -/
def Obligations.EveryStepIsARowOfTheTables : Prop :=
  ∀ (s t : State) (x : HostInput) (rest : List HostInput), s.pending = x :: rest → step s = .next t →
    t.pending = rest ∧
    ∃ (d : Done) (es : List BusEvent), t.history = s.history ++ [d] ∧ t.events = s.events ++ es ∧
      Served s.ready d es t.ready

/-- R44, R51, R191. And every row of `Answers` can happen: for every row of a command there is a device with which the command
does exactly that. The rows are the spec's tables, and beside them the model's four rows for a transaction that never ends
(log entries 3 and 11, DEDUCED), which no table of the spec holds. -/
def Obligations.EveryRowOfTheTablesCanHappen : Prop :=
  ∀ (s : State) (i : Instr) (es : List BusEvent) (after : Bool) (r : Option Response),
    s.response = none → Answers i s.ready es after r →
    ∃ (d : Device) (t : State), exec i { s with device := d } = .next t ∧
      t.events = s.events ++ es ∧ t.ready = after ∧ t.response = r

/-- R20, R53, R59. INVARIANT: every step keeps the account, that the bus traffic is the concatenation in order of the rows of the
commands issued since the start, and `READY` what those rows leave. For a command whose transaction never ends that row is the
model's: recorded as unanswered, `READY` as it was (log entries 3 and 11, DEDUCED). -/
def Obligations.StepKeepsTheAccount : Prop :=
  ∀ s t : State, s.accounted → step s = .next t → t.accounted

/-- The account holds after reset (R31; empty records are the model's choice, log entry 1). -/
def Obligations.ResetIsAccounted : Prop := State.reset.accounted

/-- R20. In every accounted state `READY` is the verdict of the last answered `VERIFY` since the last reset, and 0 when there is
none. (That a `VERIFY` which never ends leaves the verdict as it was is log entry 11, DEDUCED.) -/
def Obligations.ReadyIsTheLastVerdict : Prop :=
  ∀ s : State, s.accounted → s.ready = verdictOf s.history

/-- R9, R184, R200. In every accounted state, an accessor of the past was refused with `NotReady` exactly when no `VERIFY` had
passed before it since the last reset (or a later one had failed): no unverified device was ever used. -/
def Obligations.NoAccessorRanUnverified : Prop :=
  ∀ (s : State) (before after : List Done) (cw : CommandWord) (i : Instr) (r : Response), s.accounted →
    s.history = before ++ .command cw r :: after → decodeWord cw = .ok i → gated i = true →
    (r = .fail .notReady 0x00#8 ↔ verdictOf before = false)

/-- R50, R83. INVARIANT: every step keeps the traffic legal: reads of 0x02 to 0x07 only, writes of 0x02 to 0x04 only, the flag bits
written as 0. -/
def Obligations.StepKeepsTheTrafficLegal : Prop :=
  ∀ s t : State, s.trafficLegal → step s = .next t → t.trafficLegal

/-- The traffic is legal after reset (R50; an empty record is the model's choice, log entry 1). -/
def Obligations.ResetTrafficIsLegal : Prop := State.reset.trafficLegal

/-- INVARIANT (log entry 7): every step keeps the register file's memory in its canonical form. -/
def Obligations.StepKeepsTheDeviceCanonical : Prop :=
  ∀ s t : State, s.device.wf = true → step s = .next t → t.device.wf = true

/-- INVARIANT, R21, R31: between steps no response is left. -/
def Obligations.StepLeavesNoResponseBehind : Prop :=
  ∀ s t : State, s.response = none → step s = .next t → t.response = none

/-- R21, R24. NONINTERFERENCE: no step reads what is recorded of the past: with any other records before its own, a state does the
same. -/
def Obligations.StepReadsNoRecordOfThePast : Prop :=
  ∀ s t past : State, step s = .next t → step (s.recalling past) = .next (t.recalling past)

-- ASSEMBLER

/-- R85. A temperature as sixteenths, as its container, or in degrees spells the same operand. -/
def Obligations.ThreeSpellingsOfATemperatureAgree : Prop :=
  ∀ t : Int, fitsOperand t = true →
    (TempLiteral.sixteenths t).value = some t ∧ (TempLiteral.container (operandOf t)).value = some t ∧
    (TempLiteral.degreesC (625 * t)).value = some t ∧
    ∀ d : Int, d % 625 ≠ 0 → (TempLiteral.degreesC d).value = none

/-- R85. The rule's own lines, and the three spellings of its `-256`, as text, assemble to the words of R77. -/
def Obligations.WrittenLinesAssemble : Prop :=
  assemble "IDCMP 0x0054, 0x0400".toList = some [.command 0x3200540400#40] ∧
  assemble "VERIFY".toList = some [.command 0x2000000000#40] ∧
  assemble "DEC 0x0190".toList = some [.command 0x3001900000#40] ∧
  assemble "RDAMB".toList = some [.command 0x0500000000#40] ∧
  assemble "ENC 400".toList = some [.command 0x3101900000#40] ∧
  assemble "WRUPR 488".toList = some [.command 0x1201E80000#40] ∧
  assemble "WRLWR -256".toList = some [.command 0x13FF000000#40] ∧
  assemble "WRLWR 0xFF00".toList = some [.command 0x13FF000000#40] ∧
  assemble "WRLWR -16.0C".toList = some [.command 0x13FF000000#40]

-- THE VERDICT, STEP BY STEP

/-- R20, R108. INVARIANT: every step keeps `READY` the verdict of the last answered `VERIFY` since the last reset, and 0 when
there is none. (That a `VERIFY` which never ends leaves the verdict as it was is log entry 11, DEDUCED.) -/
def Obligations.StepKeepsReadyTheLastVerdict : Prop :=
  ∀ s t : State, s.ready = verdictOf s.history → step s = .next t → t.ready = verdictOf t.history

/-- R9, R184, R200. INVARIANT: where `READY` is the verdict of the history, every step keeps it that each accessor of the history
was refused with `NotReady` exactly when the verdict of what stands before it is 0. (That an accessor without a response had
passed the gate rests on log entry 3, DEDUCED.) -/
def Obligations.StepKeepsAccessorsGated : Prop :=
  ∀ s t : State, s.ready = verdictOf s.history → GatedHistory s.history → step s = .next t → GatedHistory t.history

/-- After reset `READY` is the verdict of the history and every accessor of it was gated (R31; an empty history is the model's
choice, log entry 1). -/
def Obligations.ResetHasNoVerdict : Prop :=
  State.reset.ready = verdictOf State.reset.history ∧ GatedHistory State.reset.history
end

