-- ==== Sys2Proof/Laws/Memory.lean ====
section
/-! SUPPORT. The register file's memory: every write keeps the canonical form, and what a read gives after a write. -/

namespace Sys2Proof.Machine

/-- A memory canonical from some address on is canonical from any lower address on. -/
theorem Memory.wfFrom_mono {lo lo' : Nat} (h : lo' ≤ lo) :
    ∀ m : Memory, Memory.wfFrom lo m = true → Memory.wfFrom lo' m = true
  | [], _ => rfl
  | (a, b) :: m, hm => by
    simp only [Memory.wfFrom, Bool.and_eq_true, decide_eq_true_eq] at hm ⊢
    exact ⟨⟨by omega, hm.1.2⟩, hm.2⟩

/-- Below its first address a canonical memory lists nothing. -/
theorem Memory.read_of_lt {lo a : Nat} (h : a < lo) :
    ∀ m : Memory, Memory.wfFrom lo m = true → Memory.read m a = Memory.unlisted
  | [], _ => rfl
  | (a', b') :: m, hm => by
    simp only [Memory.wfFrom, Bool.and_eq_true, decide_eq_true_eq] at hm
    simp only [Memory.read, if_neg (show ¬ a = a' by omega)]
    exact Memory.read_of_lt (lo := a' + 1) (by omega) m hm.2

theorem Memory.write_wfFrom {lo a : Nat} (h : lo ≤ a) (b : BitVec 8) :
    ∀ m : Memory, Memory.wfFrom lo m = true → Memory.wfFrom lo (Memory.write m a b) = true
  | [], _ => by
    by_cases hb : b = Memory.unlisted <;> simp [Memory.write, Memory.wfFrom, hb, h]
  | (a', b') :: m, hm => by
    have hm' := hm
    simp only [Memory.wfFrom, Bool.and_eq_true, decide_eq_true_eq] at hm'
    by_cases hlt : a < a'
    · by_cases hb : b = Memory.unlisted
      · simpa [Memory.write, hlt, hb] using hm
      · have hrest : Memory.wfFrom (a + 1) ((a', b') :: m) = true := by
          simp only [Memory.wfFrom, Bool.and_eq_true, decide_eq_true_eq]
          exact ⟨⟨by omega, hm'.1.2⟩, hm'.2⟩
        simp only [Memory.write, if_pos hlt, if_neg hb]
        rw [Memory.wfFrom, hrest]
        simp [h, hb]
    · by_cases heq : a = a'
      · subst heq
        by_cases hb : b = Memory.unlisted
        · simp only [Memory.write, lt_irrefl, if_false, if_true, hb]
          exact Memory.wfFrom_mono (by omega) m hm'.2
        · simp [Memory.write, Memory.wfFrom, hb, h, hm'.2]
      · have ih := Memory.write_wfFrom (lo := a' + 1) (a := a) (by omega) b m hm'.2
        simp only [Memory.write, if_neg hlt, if_neg heq, Memory.wfFrom, ih, Bool.and_true, Bool.and_eq_true,
          decide_eq_true_eq]
        exact hm'.1

/-- Every write keeps the canonical form. -/
theorem Memory.write_wf (m : Memory) (a : Nat) (b : BitVec 8) (h : Memory.wf m = true) :
    Memory.wf (Memory.write m a b) = true :=
  Memory.write_wfFrom (Nat.zero_le a) b m h

/-- The byte written is the byte read. -/
theorem Memory.read_write_same (a : Nat) (b : BitVec 8) :
    ∀ m : Memory, ∀ lo : Nat, Memory.wfFrom lo m = true → Memory.read (Memory.write m a b) a = b
  | [], _, _ => by
    by_cases hb : b = Memory.unlisted <;> simp [Memory.write, Memory.read, hb]
  | (a', b') :: m, lo, hm => by
    have hm' := hm
    simp only [Memory.wfFrom, Bool.and_eq_true, decide_eq_true_eq] at hm'
    by_cases hlt : a < a'
    · by_cases hb : b = Memory.unlisted
      · have hne : ¬ a = a' := by omega
        simp only [Memory.write, if_pos hlt, if_pos hb, Memory.read, if_neg hne]
        rw [hb]
        exact Memory.read_of_lt (lo := a' + 1) (by omega) m hm'.2
      · simp [Memory.write, hlt, hb, Memory.read]
    · by_cases heq : a = a'
      · subst heq
        by_cases hb : b = Memory.unlisted
        · simp only [Memory.write, lt_irrefl, if_false, if_true, hb]
          exact Memory.read_of_lt (Nat.lt_succ_self a) m hm'.2
        · simp [Memory.write, hb, Memory.read]
      · simp only [Memory.write, if_neg hlt, if_neg heq, Memory.read]
        exact Memory.read_write_same a b m (a' + 1) hm'.2

/-- A write leaves every other byte as it was. -/
theorem Memory.read_write_other (a c : Nat) (b : BitVec 8) (hac : c ≠ a) :
    ∀ m : Memory, Memory.read (Memory.write m a b) c = Memory.read m c
  | [] => by
    by_cases hb : b = Memory.unlisted <;> simp [Memory.write, Memory.read, hb, hac]
  | (a', b') :: m => by
    by_cases hlt : a < a'
    · by_cases hb : b = Memory.unlisted <;> simp [Memory.write, hlt, hb, Memory.read, hac]
    · by_cases heq : a = a'
      · subst heq
        by_cases hb : b = Memory.unlisted <;> simp [Memory.write, hb, Memory.read, hac]
      · simp only [Memory.write, if_neg hlt, if_neg heq, Memory.read,
          Memory.read_write_other a c b hac m]

/-- The reset state's device is well formed. -/
theorem reset_device_wf : State.reset.device.wf = true := rfl

/-- A read leaves a well-formed device well formed. -/
theorem Device.read_wf (slave reg : Byte) : ∀ d : Device, d.wf = true → (Device.read slave reg d).2.wf = true
  | .oracle [] _ _, _ => rfl
  | .oracle (_ :: _) _ _, _ => rfl
  | .registerFile _, h => h

/-- The register file's write keeps the canonical form. -/
theorem registerFileWrite_wf (slave reg b0 b1 : Byte) (m : Memory) (h : Memory.wf m = true) :
    Memory.wf (registerFileWrite slave reg b0 b1 m).2 = true := by
  unfold registerFileWrite
  split
  · exact Memory.write_wf _ _ _ (Memory.write_wf _ _ _ h)
  · exact h

/-- A write leaves a well-formed device well formed. -/
theorem Device.write_wf (slave reg b0 b1 : Byte) :
    ∀ d : Device, d.wf = true → (Device.write slave reg b0 b1 d).2.wf = true
  | .oracle _ [] _, _ => rfl
  | .oracle _ (_ :: _) _, _ => rfl
  | .registerFile m, h => registerFileWrite_wf slave reg b0 b1 m h

end Sys2Proof.Machine
end

