-- ==== Sys2Proof/Laws/State.lean ====
section
/-! SUPPORT. One lemma for each field of each update of State, and the fields of the reset state. -/

namespace Sys2Proof.Machine

@[simp] theorem respond_ready (r : Response) (s : State) : (respond r s).ready = s.ready := rfl
@[simp] theorem respond_response (r : Response) (s : State) : (respond r s).response = some r := rfl
@[simp] theorem respond_waiting (r : Response) (s : State) : (respond r s).waiting = s.waiting := rfl
@[simp] theorem respond_device (r : Response) (s : State) : (respond r s).device = s.device := rfl
@[simp] theorem respond_events (r : Response) (s : State) : (respond r s).events = s.events := rfl
@[simp] theorem respond_pending (r : Response) (s : State) : (respond r s).pending = s.pending := rfl
@[simp] theorem respond_history (r : Response) (s : State) : (respond r s).history = s.history := rfl

@[simp] theorem raise_ready (c : Condition) (b : Byte) (s : State) : (raise c b s).ready = s.ready := rfl
@[simp] theorem raise_response (c : Condition) (b : Byte) (s : State) : (raise c b s).response = some (.fail c b) := rfl
@[simp] theorem raise_waiting (c : Condition) (b : Byte) (s : State) : (raise c b s).waiting = s.waiting := rfl
@[simp] theorem raise_device (c : Condition) (b : Byte) (s : State) : (raise c b s).device = s.device := rfl
@[simp] theorem raise_events (c : Condition) (b : Byte) (s : State) : (raise c b s).events = s.events := rfl
@[simp] theorem raise_pending (c : Condition) (b : Byte) (s : State) : (raise c b s).pending = s.pending := rfl
@[simp] theorem raise_history (c : Condition) (b : Byte) (s : State) : (raise c b s).history = s.history := rfl

@[simp] theorem setReady_ready (v : Bool) (s : State) : (setReady v s).ready = v := rfl
@[simp] theorem setReady_response (v : Bool) (s : State) : (setReady v s).response = s.response := rfl
@[simp] theorem setReady_waiting (v : Bool) (s : State) : (setReady v s).waiting = s.waiting := rfl
@[simp] theorem setReady_device (v : Bool) (s : State) : (setReady v s).device = s.device := rfl
@[simp] theorem setReady_events (v : Bool) (s : State) : (setReady v s).events = s.events := rfl
@[simp] theorem setReady_pending (v : Bool) (s : State) : (setReady v s).pending = s.pending := rfl
@[simp] theorem setReady_history (v : Bool) (s : State) : (setReady v s).history = s.history := rfl

@[simp] theorem takeCommand_ready (p : List HostInput) (s : State) : (takeCommand p s).ready = s.ready := rfl
@[simp] theorem takeCommand_response (p : List HostInput) (s : State) : (takeCommand p s).response = none := rfl
@[simp] theorem takeCommand_waiting (p : List HostInput) (s : State) : (takeCommand p s).waiting = s.waiting := rfl
@[simp] theorem takeCommand_device (p : List HostInput) (s : State) : (takeCommand p s).device = s.device := rfl
@[simp] theorem takeCommand_events (p : List HostInput) (s : State) : (takeCommand p s).events = s.events := rfl
@[simp] theorem takeCommand_pending (p : List HostInput) (s : State) : (takeCommand p s).pending = p := rfl
@[simp] theorem takeCommand_history (p : List HostInput) (s : State) : (takeCommand p s).history = s.history := rfl

@[simp] theorem deliver_ready (cw : CommandWord) (s : State) : (deliver cw s).ready = s.ready := rfl
@[simp] theorem deliver_response (cw : CommandWord) (s : State) : (deliver cw s).response = none := rfl
@[simp] theorem deliver_waiting (cw : CommandWord) (s : State) : (deliver cw s).waiting = s.waiting := rfl
@[simp] theorem deliver_device (cw : CommandWord) (s : State) : (deliver cw s).device = s.device := rfl
@[simp] theorem deliver_events (cw : CommandWord) (s : State) : (deliver cw s).events = s.events := rfl
@[simp] theorem deliver_pending (cw : CommandWord) (s : State) : (deliver cw s).pending = s.pending := rfl
@[simp] theorem deliver_history (cw : CommandWord) (s : State) :
    (deliver cw s).history = s.history ++ [doneOf cw s.response] := rfl

@[simp] theorem resetEvent_ready (p : List HostInput) (s : State) : (resetEvent p s).ready = false := rfl
@[simp] theorem resetEvent_response (p : List HostInput) (s : State) : (resetEvent p s).response = s.response := rfl
@[simp] theorem resetEvent_waiting (p : List HostInput) (s : State) : (resetEvent p s).waiting = s.waiting := rfl
@[simp] theorem resetEvent_device (p : List HostInput) (s : State) : (resetEvent p s).device = s.device := rfl
@[simp] theorem resetEvent_events (p : List HostInput) (s : State) : (resetEvent p s).events = s.events := rfl
@[simp] theorem resetEvent_pending (p : List HostInput) (s : State) : (resetEvent p s).pending = p := rfl
@[simp] theorem resetEvent_history (p : List HostInput) (s : State) :
    (resetEvent p s).history = s.history ++ [.reset] := rfl

@[simp] theorem withFetchWord_pending (s : State) (n w : Nat) :
    (s.withFetchWord n w).pending = .command (tableWord n w) :: s.pending := rfl
@[simp] theorem withFetchWord_waiting (s : State) (n w : Nat) : (s.withFetchWord n w).waiting = none := rfl
@[simp] theorem withFetchWord_ready (s : State) (n w : Nat) : (s.withFetchWord n w).ready = s.ready := rfl
@[simp] theorem withFetchWord_device (s : State) (n w : Nat) : (s.withFetchWord n w).device = s.device := rfl

@[simp] theorem verdictOf_nil : verdictOf [] = false := rfl
@[simp] theorem verdictOf_concat (h : List Done) (d : Done) : verdictOf (h ++ [d]) = verdictAfter (verdictOf h) d := by
  simp [verdictOf]

@[simp] theorem doneOf_some (cw : CommandWord) (r : Response) : doneOf cw (some r) = .command cw r := rfl
@[simp] theorem doneOf_none (cw : CommandWord) : doneOf cw none = .unanswered cw := rfl

end Sys2Proof.Machine
end

