-- ==== Sys2Proof/Laws/Ops.lean ====
section
/-! SUPPORT. One lemma for each shared operation that says everything it can do. -/

namespace Sys2Proof.Machine

/-- A read ends and is recorded, or never ends and leaves the block inside it; nothing else of the state changes. -/
theorem memRead_cases (reg : Byte) (s : State) :
    (∃ r d, Device.read Config.slaveAddr reg s.device = (.ends r, d) ∧
      memRead reg s = (.ends r, { s with device := d, events := s.events ++ [.read reg r] })) ∨
    (∃ d, Device.read Config.slaveAddr reg s.device = (.never, d) ∧
      memRead reg s = (.never, { s with device := d, waiting := some (.read reg) })) := by
  unfold memRead
  rcases h : Device.read Config.slaveAddr reg s.device with ⟨_ | _, d⟩
  · exact .inl ⟨_, _, rfl, rfl⟩
  · exact .inr ⟨_, rfl, rfl⟩

/-- A write ends and is recorded, or never ends and leaves the block inside it; nothing else of the state changes. -/
theorem memWrite_cases (reg b0 b1 : Byte) (s : State) :
    (∃ w d, Device.write Config.slaveAddr reg b0 b1 s.device = (.ends w, d) ∧
      memWrite reg b0 b1 s = (.ends w, { s with device := d, events := s.events ++ [.write reg b0 b1 w] })) ∨
    (∃ d, Device.write Config.slaveAddr reg b0 b1 s.device = (.never, d) ∧
      memWrite reg b0 b1 s = (.never, { s with device := d, waiting := some (.write reg b0 b1) })) := by
  unfold memWrite
  rcases h : Device.write Config.slaveAddr reg b0 b1 s.device with ⟨_ | _, d⟩
  · exact .inl ⟨_, _, rfl, rfl⟩
  · exact .inr ⟨_, rfl, rfl⟩

/-- A returned outcome is a next state only of a next state. -/
theorem returnToHost_next {cw : CommandWord} {o : Host.Outcome State Fault Refusal} {t : State} :
    returnToHost cw o = .next t ↔ ∃ u, o = .next u ∧ t = deliver cw u := by
  cases o <;> simp [returnToHost, eq_comm]

/-- Everything a step that answers a next state can have done: waited, taken a reset event, answered a word that is no command,
or run the decoded command. -/
theorem step_next_cases {s t : State} (h : step s = .next t) :
    s.waiting = none ∧
      ((s.pending = [] ∧ t = s) ∨
        (∃ rest, s.pending = .reset :: rest ∧ t = resetEvent rest s) ∨
        (∃ cw rest e, s.pending = .command cw :: rest ∧ decodeWord cw = .error e ∧
          t = deliver cw (illegalCommand (takeCommand rest s))) ∨
        (∃ cw rest i u, s.pending = .command cw :: rest ∧ decodeWord cw = .ok i ∧
          exec i (takeCommand rest s) = .next u ∧ t = deliver cw u)) := by
  unfold step nextInput at h
  rcases hw : s.waiting with _ | _
  · rcases hp : s.pending with _ | ⟨_ | _, rest⟩
    · simp [hw, hp, idleStep] at h
      exact ⟨rfl, .inl ⟨rfl, h.symm⟩⟩
    · next cw =>
      rcases hd : decodeWord cw with e | i
      · simp [hw, hp, hd] at h
        exact ⟨rfl, .inr (.inr (.inl ⟨cw, rest, e, rfl, hd, h.symm⟩))⟩
      · simp only [hw, hp, hd] at h
        obtain ⟨u, hu, ht⟩ := returnToHost_next.mp h
        exact ⟨rfl, .inr (.inr (.inr ⟨cw, rest, i, u, rfl, hd, hu, ht⟩))⟩
    · simp [hw, hp] at h
      exact ⟨rfl, .inr (.inl ⟨rest, rfl, h.symm⟩)⟩
  · simp [hw] at h

/-- The bits of a pair: the second byte below, the first above (R6, R46). -/
theorem getLsbD_pair (b0 b1 : Byte) (i : Nat) :
    (pair b0 b1).getLsbD i = if i < 8 then b1.getLsbD i else b0.getLsbD (i - 8) := by
  exact BitVec.getLsbD_append (x := b0) (y := b1)

/-- A pair as a number (R46, R70). -/
theorem toNat_pair (b0 b1 : Byte) : (pair b0 b1).toNat = b0.toNat * 256 + b1.toNat := by
  have h : (pair b0 b1).toNat = b0.toNat <<< 8 ||| b1.toNat := BitVec.toNat_append b0 b1
  rw [h, ← Nat.shiftLeft_add_eq_or_of_lt b1.isLt, Nat.shiftLeft_eq]

/-- The bits of the first byte. -/
theorem getLsbD_msb (raw : Raw) (i : Nat) : (msb raw).getLsbD i = (decide (i < 8) && raw.getLsbD (8 + i)) := by
  simp [msb, BitVec.getLsbD_extractLsb']

/-- The bits of the second byte. -/
theorem getLsbD_lsb (raw : Raw) (i : Nat) : (lsb raw).getLsbD i = (decide (i < 8) && raw.getLsbD i) := by
  simp [lsb, BitVec.getLsbD_extractLsb']

/-- The two bytes of a pair are its halves, in bus order. -/
@[simp] theorem msb_pair (b0 b1 : Byte) : msb (pair b0 b1) = b0 := by
  apply BitVec.eq_of_getLsbD_eq
  intro i hi
  rw [getLsbD_msb, getLsbD_pair]
  simp [hi]

@[simp] theorem lsb_pair (b0 b1 : Byte) : lsb (pair b0 b1) = b1 := by
  apply BitVec.eq_of_getLsbD_eq
  intro i hi
  rw [getLsbD_lsb, getLsbD_pair]
  simp [hi]

/-- A RawRegisterValue is the pair of its halves. -/
@[simp] theorem pair_msb_lsb (raw : Raw) : pair (msb raw) (lsb raw) = raw := by
  apply BitVec.eq_of_getLsbD_eq
  intro i hi
  rw [getLsbD_pair]
  split
  · next h => rw [getLsbD_lsb]; simp [h]
  · next h => rw [getLsbD_msb]; simp [show i - 8 < 8 by omega, show 8 + (i - 8) = i by omega]

/-- The bits of an assembled word (R75). -/
theorem getLsbD_commandWord (o : Byte) (a b : Raw) (i : Nat) :
    (commandWord o a b).getLsbD i =
      if i < 16 then b.getLsbD i else if i - 16 < 16 then a.getLsbD (i - 16) else o.getLsbD (i - 16 - 16) := by
  have h1 : (commandWord o a b).getLsbD i = if i < 16 then b.getLsbD i else (o ++ a).getLsbD (i - 16) :=
    BitVec.getLsbD_append (x := o ++ a) (y := b)
  rw [h1, BitVec.getLsbD_append (x := o) (y := a)]

/-- The fields of an assembled word. -/
@[simp] theorem opcOf_commandWord (o : Byte) (a b : Raw) : opcOf (commandWord o a b) = o := by
  apply BitVec.eq_of_getLsbD_eq
  intro i hi
  simp [opcOf, getLsbD_commandWord, hi, show ¬ 32 + i < 16 by omega,
    show ¬ 32 + i - 16 < 16 by omega, show 32 + i - 16 - 16 = i by omega]

@[simp] theorem operandA_commandWord (o : Byte) (a b : Raw) : operandA (commandWord o a b) = a := by
  apply BitVec.eq_of_getLsbD_eq
  intro i hi
  simp [operandA, getLsbD_commandWord, hi]

@[simp] theorem operandB_commandWord (o : Byte) (a b : Raw) : operandB (commandWord o a b) = b := by
  apply BitVec.eq_of_getLsbD_eq
  intro i hi
  simp [operandB, getLsbD_commandWord, hi]

/-- A word is its three fields (R75). -/
theorem commandWord_fields (cw : CommandWord) : commandWord (opcOf cw) (operandA cw) (operandB cw) = cw := by
  apply BitVec.eq_of_getLsbD_eq
  intro i hi
  simp only [getLsbD_commandWord, opcOf, operandA, operandB, BitVec.getLsbD_extractLsb']
  by_cases h1 : i < 16
  · simp [h1]
  · by_cases h2 : i - 16 < 16
    · simp [h1, h2, show 16 + (i - 16) = i by omega]
    · simp [h1, h2, show i - 16 - 16 < 8 by omega, show 32 + (i - 16 - 16) = i by omega]

/-- A temperature that an operand can hold reads back from it (R78). -/
theorem sext16_operandOf {t : Int} (h : fitsOperand t = true) : sext16 (operandOf t) = t := by
  simp only [fitsOperand, Bool.and_eq_true, decide_eq_true_eq] at h
  simp only [sext16, operandOf, BitVec.toInt_ofInt]
  rw [Int.bmod_eq_of_le] <;> omega

/-- Whatever an operand holds, it is a temperature an operand can hold. -/
theorem fitsOperand_sext16 (a : Raw) : fitsOperand (sext16 a) = true := by
  have h1 := BitVec.le_toInt a
  have h2 := BitVec.toInt_lt (x := a)
  unfold fitsOperand sext16
  rw [Bool.and_eq_true, decide_eq_true_iff, decide_eq_true_iff]
  constructor <;> omega

/-- An operand is the container of what it reads as. -/
theorem operandOf_sext16 (a : Raw) : operandOf (sext16 a) = a := by
  simp [operandOf, sext16, BitVec.ofInt_toInt]

end Sys2Proof.Machine
end

