-- ==== Sys2Proof/Laws/Codec.lean ====
section
/-! SUPPORT. What the decode and the encode are as arithmetic on the number a RawRegisterValue stands for. -/

namespace Sys2Proof.Machine

/-- A byte as a number. -/
theorem toNat_msb (raw : Raw) : (msb raw).toNat = raw.toNat / 256 := by
  have h := raw.isLt
  simp [msb, BitVec.extractLsb'_toNat, Nat.shiftRight_eq_div_pow]
  omega

theorem toNat_lsb (raw : Raw) : (lsb raw).toNat = raw.toNat % 256 := by
  simp [lsb, BitVec.extractLsb'_toNat]

/-- The 13-bit field as a number (R70). -/
theorem toNat_f13 (raw : Raw) : (f13 raw).toNat = raw.toNat % 8192 := by
  simp [f13, BitVec.extractLsb'_toNat]

/-- The sign test on a masked byte, and the two masked parts, for each of the 256 bytes (R121). -/
theorem masked_byte : ∀ b : Byte,
    (b &&& Config.flagMask &&& Config.signMask ≠ 0#8 ↔ 16 ≤ b.toNat % 32) ∧
    (b &&& Config.flagMask).toNat = b.toNat % 32 ∧
    (b &&& Config.flagMask &&& Config.nibbleMask).toNat = b.toNat % 16 := by decide

/-- The decode, by the number of the 13-bit field (R121, R123). -/
theorem decodeTemp_eq (raw : Raw) :
    decodeTemp raw =
      if 4096 ≤ raw.toNat % 8192 then
        { neg := true, mag := 8192 - raw.toNat % 8192, t := (raw.toNat % 8192 : Int) - 8192 }
      else
        { neg := false, mag := raw.toNat % 8192, t := (raw.toNat % 8192 : Int) } := by
  obtain ⟨hs, hm, hn⟩ := masked_byte (msb raw)
  rw [toNat_msb] at hs hm hn
  unfold decodeTemp
  simp only [hs, hm, hn, toNat_lsb, Config.bias]
  by_cases h : 4096 ≤ raw.toNat % 8192
  · have h' : 16 ≤ raw.toNat / 256 % 32 := by omega
    simp only [if_pos h', if_pos h, Reading.mk.injEq, true_and]
    constructor <;> omega
  · have h' : ¬ 16 ≤ raw.toNat / 256 % 32 := by omega
    simp only [if_neg h', if_neg h, Reading.mk.injEq, true_and]
    constructor <;> omega

/-- The encode of a temperature in range, as a number (R151, R153). -/
theorem encodeTemp_toNat {t : Int} (lo : -4096 ≤ t) (hi : t ≤ 4095) :
    ((encodeTemp t).toNat : Int) = t % 8192 := by
  unfold encodeTemp
  simp only [toNat_pair, BitVec.toNat_ofNat]
  have and255 : ∀ v : Nat, v &&& 0xFF = v % 256 := fun v => Nat.and_two_pow_sub_one_eq_mod v 8
  simp only [and255, Nat.shiftRight_eq_div_pow]
  by_cases h : t < 0
  · simp only [if_pos h]
    have hor : 1 <<< 4 ||| (t + 4096).toNat / 2 ^ 8 = 16 + (t + 4096).toNat / 2 ^ 8 := by
      have := Nat.shiftLeft_add_eq_or_of_lt (i := 4) (b := (t + 4096).toNat / 2 ^ 8) (by omega) 1
      omega
    rw [hor]
    omega
  · simp only [if_neg h, Nat.zero_shiftLeft, Nat.zero_or]
    omega

end Sys2Proof.Machine
end

