-- ==== Sys2Proof/Laws/Families.lean ====
section
/-! SUPPORT. What a decoded word can be, and everything the shared bodies of the accessors and of `VERIFY` can do. -/

namespace Sys2Proof.Machine

/-- A word that decodes has one of the eleven opcodes and is that opcode's command. -/
theorem decodeWord_ok_cases {cw : CommandWord} {i : Instr} (h : decodeWord cw = .ok i) :
    (opcOf cw = 0x02#8 ∧ i = .rdupr) ∨ (opcOf cw = 0x03#8 ∧ i = .rdlwr) ∨ (opcOf cw = 0x04#8 ∧ i = .rdcrt) ∨
    (opcOf cw = 0x05#8 ∧ i = .rdamb) ∨ (opcOf cw = 0x12#8 ∧ i = .wrupr (sext16 (operandA cw))) ∨
    (opcOf cw = 0x13#8 ∧ i = .wrlwr (sext16 (operandA cw))) ∨ (opcOf cw = 0x14#8 ∧ i = .wrcrt (sext16 (operandA cw))) ∨
    (opcOf cw = 0x20#8 ∧ i = .verify) ∨ (opcOf cw = 0x30#8 ∧ i = .dec (operandA cw)) ∨
    (opcOf cw = 0x31#8 ∧ i = .enc (sext16 (operandA cw))) ∨
    (opcOf cw = 0x32#8 ∧ i = .idcmp (operandA cw) (operandB cw)) := by
  unfold decodeWord at h
  split at h <;> simp_all

/-- A read accessor is the common body at its register. -/
theorem exec_of_readsRegister {i : Instr} {reg : Byte} (h : ReadsRegister i reg) (s : State) :
    exec i s = .next (rdtemp reg s) := by cases h <;> rfl

/-- A write accessor is the common body at its register and temperature. -/
theorem exec_of_writesRegister {i : Instr} {reg : Byte} {t : Int} (h : WritesRegister i reg t) (s : State) :
    exec i s = .next (wrtemp reg t s) := by cases h <;> rfl

/-- Everything a read accessor can do: be refused, fail, answer, or never end. -/
theorem rdtemp_cases (reg : Byte) (s : State) :
    (s.ready = false ∧ rdtemp reg s = raise .notReady 0x00#8 s) ∨
    (s.ready = true ∧ ∃ d, Device.read Config.slaveAddr reg s.device = (.ends .fail, d) ∧
      rdtemp reg s = raise .busError 0x00#8 { s with device := d, events := s.events ++ [.read reg .fail] }) ∨
    (s.ready = true ∧ ∃ b0 b1 d, Device.read Config.slaveAddr reg s.device = (.ends (.ok b0 b1), d) ∧
      rdtemp reg s = respond (tempResponse (decodeTemp (pair b0 b1)))
        { s with device := d, events := s.events ++ [.read reg (.ok b0 b1)] }) ∨
    (s.ready = true ∧ ∃ d, Device.read Config.slaveAddr reg s.device = (.never, d) ∧
      rdtemp reg s = { s with device := d, waiting := some (.read reg) }) := by
  unfold rdtemp
  split
  · next hr =>
    rcases memRead_cases reg s with ⟨r, d, h1, h2⟩ | ⟨d, h1, h2⟩
    · cases r with
      | fail => exact .inr (.inl ⟨hr, d, h1, by rw [h2]⟩)
      | ok b0 b1 => exact .inr (.inr (.inl ⟨hr, b0, b1, d, h1, by rw [h2]⟩))
    · exact .inr (.inr (.inr ⟨hr, d, h1, by rw [h2]⟩))
  · next hr => exact .inl ⟨by simpa using hr, rfl⟩

/-- Everything a write accessor can do: be refused, refuse the value, fail, end, or never end. -/
theorem wrtemp_cases (reg : Byte) (t : Int) (s : State) :
    (s.ready = false ∧ wrtemp reg t s = raise .notReady 0x00#8 s) ∨
    (s.ready = true ∧ inRange t = false ∧ wrtemp reg t s = raise .valueOutOfRange 0x00#8 s) ∨
    (s.ready = true ∧ inRange t = true ∧ ∃ w d,
      Device.write Config.slaveAddr reg (msb (encodeTemp t)) (lsb (encodeTemp t)) s.device = (.ends w, d) ∧
      wrtemp reg t s = respond (match w with
          | .ok => .okUnit
          | .fail => .fail .busError 0x00#8)
        { s with device := d
                 events := s.events ++ [.write reg (msb (encodeTemp t)) (lsb (encodeTemp t)) w] }) ∨
    (s.ready = true ∧ inRange t = true ∧ ∃ d,
      Device.write Config.slaveAddr reg (msb (encodeTemp t)) (lsb (encodeTemp t)) s.device = (.never, d) ∧
      wrtemp reg t s = { s with device := d
                                waiting := some (.write reg (msb (encodeTemp t)) (lsb (encodeTemp t))) }) := by
  unfold wrtemp
  split
  · next hr =>
    split
    · next hi =>
      rcases memWrite_cases reg (msb (encodeTemp t)) (lsb (encodeTemp t)) s with ⟨w, d, h1, h2⟩ | ⟨d, h1, h2⟩
      · exact .inr (.inr (.inl ⟨hr, hi, w, d, h1, by rw [h2]; cases w <;> rfl⟩))
      · exact .inr (.inr (.inr ⟨hr, hi, d, h1, by rw [h2]⟩))
    · next hi => exact .inr (.inl ⟨hr, by simpa using hi, rfl⟩)
  · next hr => exact .inl ⟨by simpa using hr, rfl⟩

/-- The range check as inequalities. -/
theorem inRange_eq_true {t : Int} : inRange t = true ↔ -4096 ≤ t ∧ t ≤ 4095 := by
  simp [inRange, Config.tMin, Config.tMax]

/-- The thirteen data bits as a signed number. -/
theorem toInt_f13 (raw : Raw) :
    (f13 raw).toInt =
      if 4096 ≤ raw.toNat % 8192 then (raw.toNat % 8192 : Int) - 8192 else (raw.toNat % 8192 : Int) := by
  rw [BitVec.toInt_eq_toNat_cond, toNat_f13]
  split <;> split <;> simp <;> omega

/-- The sign bit of a raw value as a comparison. -/
theorem getLsbD_signBit (raw : Raw) : raw.getLsbD 12 = decide (4096 ≤ raw.toNat % 8192) := by
  have h : raw.getLsbD 12 = decide (raw.toNat / 4096 % 2 = 1) := by
    unfold BitVec.getLsbD
    rw [Nat.testBit_eq_decide_div_mod_eq]
  rw [h]
  apply decide_eq_decide.2
  omega

/-- The two bytes of an encoding. -/
theorem encodeTemp_bytes {t : Int} (lo : -4096 ≤ t) (hi : t ≤ 4095) :
    ((msb (encodeTemp t)).toNat : Int) = t % 8192 / 256 ∧ ((lsb (encodeTemp t)).toNat : Int) = t % 256 := by
  have := encodeTemp_toNat lo hi
  rw [toNat_msb, toNat_lsb]
  constructor <;> omega

/-- A read through the bus keeps the device's memory canonical. -/
theorem memRead_device_wf (reg : Byte) (s : State) (h : s.device.wf = true) : (memRead reg s).2.device.wf = true := by
  have hd := Device.read_wf Config.slaveAddr reg s.device h
  rcases memRead_cases reg s with ⟨r, d, h1, h2⟩ | ⟨d, h1, h2⟩ <;> rw [h2] <;> rw [h1] at hd <;> exact hd

/-- A write through the bus keeps the device's memory canonical. -/
theorem memWrite_device_wf (reg b0 b1 : Byte) (s : State) (h : s.device.wf = true) :
    (memWrite reg b0 b1 s).2.device.wf = true := by
  have hd := Device.write_wf Config.slaveAddr reg b0 b1 s.device h
  rcases memWrite_cases reg b0 b1 s with ⟨r, d, h1, h2⟩ | ⟨d, h1, h2⟩ <;> rw [h2] <;> rw [h1] at hd <;> exact hd

end Sys2Proof.Machine
end

