-- ==== Sys2Proof/Laws/PerInstr.lean ====
section
/-! SUPPORT. A statement about each command as syntax, with one lemma for each constructor: its word lies in its row of the
opcode map, uses only the bits its encoding string uses, and carries its opcode (R75, R77, R81). -/

namespace Sys2Proof.Laws.OpcodeField

/-- The command's word carries one of the defined opcodes and has a row of the opcode map under the command's mnemonic. -/
def Statement (i : Instr) : Prop :=
  opcOf (encode i) ∈ Machine.definedOpcodes ∧
    ∃ row ∈ opcodeTable, row.mnemonic = mnemonicOf i ∧ (opcOf (encode i)) = opcOf row.wordMatch

theorem rdupr : Statement .rdupr := by unfold Statement; decide
theorem rdlwr : Statement .rdlwr := by unfold Statement; decide
theorem rdcrt : Statement .rdcrt := by unfold Statement; decide
theorem rdamb : Statement .rdamb := by unfold Statement; decide
theorem verify : Statement .verify := by unfold Statement; decide

theorem wrupr (t : Int) : Statement (.wrupr t) := by
  simp only [Statement, encode, Machine.opcOf_commandWord, mnemonicOf]; decide

theorem wrlwr (t : Int) : Statement (.wrlwr t) := by
  simp only [Statement, encode, Machine.opcOf_commandWord, mnemonicOf]; decide

theorem wrcrt (t : Int) : Statement (.wrcrt t) := by
  simp only [Statement, encode, Machine.opcOf_commandWord, mnemonicOf]; decide

theorem dec (raw : Raw) : Statement (.dec raw) := by
  simp only [Statement, encode, Machine.opcOf_commandWord, mnemonicOf]; decide

theorem enc (t : Int) : Statement (.enc t) := by
  simp only [Statement, encode, Machine.opcOf_commandWord, mnemonicOf]; decide

theorem idcmp (man dev : Raw) : Statement (.idcmp man dev) := by
  simp only [Statement, encode, Machine.opcOf_commandWord, mnemonicOf]; decide

end Sys2Proof.Laws.OpcodeField
end

