-- ==== Sys2Proof/Tests/Slice0.lean ====
section
/-! SUPPORT. Tests whose expected values are the spec's own (95_test_vectors.md and the rules' examples), the smoke test of
well-formedness, and a witness for the hypotheses of each statement of Obligations.lean. -/

namespace Sys2Proof.Tests

open Sys2Proof Sys2Proof.Machine

-- HELPERS

/-- A block whose `READY` is `v`, with a device behind its bus. -/
def block (v : Bool) (d : Device) : State := { State.reset with ready := v, device := d }

/-- A device that answers these reads and these writes, in order. -/
def answering (reads : List (Reply ReadResult)) (writes : List (Reply WriteResult)) : Device := .oracle reads writes 0

/-- A read that ends with two bytes. -/
def bytes (b0 b1 : Byte) : Reply ReadResult := .ends (.ok b0 b1)

/-- What one command word does: what the host has back, `READY` after it, and the bus events. -/
def outcome (s : State) (cw : CommandWord) : Option (Option Done × Bool × List BusEvent) :=
  match step { s with pending := [.command cw] } with
  | .next t => some (t.history.getLast?, t.ready, t.events)
  | .fault _ => none
  | .refused _ => none

/-- The block with a verified device whose one answer is still to come, for the witnesses. -/
def verified : State := block true (answering [bytes 0x01#8 0x90#8] [.ends .ok])

/-- The block right after reset in front of a device that identifies itself (95_test_vectors.md P1). -/
def constructing : State := block false (answering [bytes 0x00#8 0x54#8, bytes 0x04#8 0x00#8] [])

/-- The block with a command at its port. -/
def issued (s : State) (cw : CommandWord) : State := { s with pending := [.command cw] }

/-- The block after `VERIFY` and `RDAMB` of 95_test_vectors.md P1. -/
def afterTwo : State :=
  { block true (answering [] []) with
    events := [.read 0x06#8 (.ok 0x00#8 0x54#8), .read 0x07#8 (.ok 0x04#8 0x00#8), .read 0x05#8 (.ok 0xC1#8 0x94#8)]
    history := [.command 0x2000000000#40 .okUnit, .command 0x0500000000#40 (closedTemp 0xC194#16)] }

/-- The block after an accessor that was refused before any `VERIFY`. -/
def afterRefusal : State :=
  { block false (answering [] []) with history := [.command 0x0500000000#40 (.fail .notReady 0x00#8)] }

-- WELL-FORMEDNESS: a temperature outside the 16-bit container, one for each command that has one (R78)

theorem test_wf_refuses_wrupr : (Instr.wrupr 32768).wf = false ∧ (Instr.wrupr (-32769)).wf = false := by decide
theorem test_wf_refuses_wrlwr : (Instr.wrlwr 32768).wf = false ∧ (Instr.wrlwr (-32769)).wf = false := by decide
theorem test_wf_refuses_wrcrt : (Instr.wrcrt 32768).wf = false ∧ (Instr.wrcrt (-32769)).wf = false := by decide
theorem test_wf_refuses_enc : (Instr.enc 32768).wf = false ∧ (Instr.enc (-32769)).wf = false := by decide

-- DECODING: words written out from R77, and those of 95_test_vectors.md section 2.4

theorem test_decode_reads :
    decodeWord 0x0200000000#40 = .ok .rdupr ∧ decodeWord 0x0300000000#40 = .ok .rdlwr ∧
    decodeWord 0x0400000000#40 = .ok .rdcrt ∧ decodeWord 0x0500000000#40 = .ok .rdamb ∧
    decodeWord 0x05FFFFFFFF#40 = .ok .rdamb := by decide

theorem test_decode_writes :
    decodeWord 0x1201E80000#40 = .ok (.wrupr 488) ∧ decodeWord 0x13FF000000#40 = .ok (.wrlwr (-256)) ∧
    decodeWord 0x1412C00000#40 = .ok (.wrcrt 4800) ∧ decodeWord 0x13F0000000#40 = .ok (.wrlwr (-4096)) := by decide

theorem test_decode_identity :
    decodeWord 0x2000000000#40 = .ok .verify ∧ decodeWord 0x20DEADBEEF#40 = .ok .verify ∧
    decodeWord 0x3200540400#40 = .ok (.idcmp 0x0054#16 0x0400#16) := by decide

theorem test_decode_pure :
    decodeWord 0x3001900000#40 = .ok (.dec 0x0190#16) ∧ decodeWord 0x300190FFFF#40 = .ok (.dec 0x0190#16) ∧
    decodeWord 0x31FF000000#40 = .ok (.enc (-256)) := by decide

theorem test_decode_reserved :
    decodeWord 0x0000000000#40 = .error (.reservedOpcode 0x00#8) ∧
    decodeWord 0x0100000000#40 = .error (.reservedOpcode 0x01#8) ∧
    decodeWord 0x0600000000#40 = .error (.reservedOpcode 0x06#8) ∧
    decodeWord 0x0800000000#40 = .error (.reservedOpcode 0x08#8) ∧
    decodeWord 0x1100000000#40 = .error (.reservedOpcode 0x11#8) ∧
    decodeWord 0x1500000000#40 = .error (.reservedOpcode 0x15#8) ∧
    decodeWord 0x2100000000#40 = .error (.reservedOpcode 0x21#8) ∧
    decodeWord 0x3300000000#40 = .error (.reservedOpcode 0x33#8) ∧
    decodeWord 0xFF00000000#40 = .error (.reservedOpcode 0xFF#8) := by decide

/-- The 40-bit table word and the step that runs it. -/
theorem test_table_word :
    decodeTableWord 40 0x3200540400 = some (.idcmp 0x0054#16 0x0400#16) ∧ decodeTableWord 40 0x0600000000 = none ∧
    (State.reset.withFetchWord 40 0x3001900000).pending = [.command 0x3001900000#40] := by decide

-- THE COMMANDS, one word each (95_test_vectors.md sections 2.1 to 2.4 and 3)

/-- Section 2.2, read accessors, row 5. -/
theorem test_rdupr : outcome (block true (answering [bytes 0x01#8 0xE8#8] [])) 0x0200000000#40 =
    some (some (.command 0x0200000000#40 (.okTemp false 488#13 0x01E8#16)), true,
      [.read 0x02#8 (.ok 0x01#8 0xE8#8)]) := by decide

/-- Section 2.2, read accessors, row 6. -/
theorem test_rdlwr : outcome (block true (answering [bytes 0x1F#8 0x00#8] [])) 0x0300000000#40 =
    some (some (.command 0x0300000000#40 (.okTemp true 256#13 0xFF00#16)), true,
      [.read 0x03#8 (.ok 0x1F#8 0x00#8)]) := by decide

/-- Section 2.2, read accessors, row 8: the flag bits are ignored. -/
theorem test_rdcrt : outcome (block true (answering [bytes 0xE5#8 0x00#8] [])) 0x0400000000#40 =
    some (some (.command 0x0400000000#40 (.okTemp false 1280#13 0x0500#16)), true,
      [.read 0x04#8 (.ok 0xE5#8 0x00#8)]) := by decide

/-- Section 2.2, read accessors, row 2. -/
theorem test_rdamb_bus_error : outcome (block true (answering [.ends .fail] [])) 0x0500000000#40 =
    some (some (.command 0x0500000000#40 (.fail .busError 0x00#8)), true, [.read 0x05#8 .fail]) := by decide

/-- Section 2.2, read accessors, rows 3 and 4: refused in mode `UNVERIFIED`, operands ignored. -/
theorem test_rdamb_gate :
    outcome (block false (answering [bytes 0x01#8 0x90#8] [])) 0x0500000000#40 =
      some (some (.command 0x0500000000#40 (.fail .notReady 0x00#8)), false, []) ∧
    outcome (block true (answering [bytes 0x01#8 0x90#8] [])) 0x05ABCD1234#40 =
      some (some (.command 0x05ABCD1234#40 (.okTemp false 400#13 0x0190#16)), true,
        [.read 0x05#8 (.ok 0x01#8 0x90#8)]) := by decide

/-- Section 2.3, write accessors, rows 1 and 10. -/
theorem test_wrupr :
    outcome (block true (answering [] [.ends .ok])) 0x1201E80000#40 =
      some (some (.command 0x1201E80000#40 .okUnit), true, [.write 0x02#8 0x01#8 0xE8#8 .ok]) ∧
    outcome (block false (answering [] [.ends .ok])) 0x1201E80000#40 =
      some (some (.command 0x1201E80000#40 (.fail .notReady 0x00#8)), false, []) := by decide

/-- Section 2.3, write accessors, rows 7 and 8: both sides of the lower bound. -/
theorem test_wrlwr_bound :
    outcome (block true (answering [] [.ends .ok])) 0x13F0000000#40 =
      some (some (.command 0x13F0000000#40 .okUnit), true, [.write 0x03#8 0x10#8 0x00#8 .ok]) ∧
    outcome (block true (answering [] [.ends .ok])) 0x13EFFF0000#40 =
      some (some (.command 0x13EFFF0000#40 (.fail .valueOutOfRange 0x00#8)), true, []) := by decide

/-- Section 2.3, write accessors, row 9. -/
theorem test_wrlwr_bus_error : outcome (block true (answering [] [.ends .fail])) 0x13FFF00000#40 =
    some (some (.command 0x13FFF00000#40 (.fail .busError 0x00#8)), true,
      [.write 0x03#8 0x1F#8 0xF0#8 .fail]) := by decide

/-- Section 2.3, write accessors, rows 4 and 5: the gate is tested before the range. -/
theorem test_wrcrt_priority :
    outcome (block true (answering [] [.ends .ok])) 0x1412C00000#40 =
      some (some (.command 0x1412C00000#40 (.fail .valueOutOfRange 0x00#8)), true, []) ∧
    outcome (block false (answering [] [.ends .ok])) 0x1412C00000#40 =
      some (some (.command 0x1412C00000#40 (.fail .notReady 0x00#8)), false, []) := by decide

/-- Section 2.1, `VERIFY`, rows 2 and 4. -/
theorem test_verify_identity :
    outcome (block false (answering [bytes 0x00#8 0x54#8, bytes 0x04#8 0xA7#8] [])) 0x2000000000#40 =
      some (some (.command 0x2000000000#40 .okUnit), true,
        [.read 0x06#8 (.ok 0x00#8 0x54#8), .read 0x07#8 (.ok 0x04#8 0xA7#8)]) ∧
    outcome (block true (answering [bytes 0x00#8 0x55#8, bytes 0x04#8 0x00#8] [])) 0x2000000000#40 =
      some (some (.command 0x2000000000#40 (.fail .deviceNotFound 0x18#8)), false,
        [.read 0x06#8 (.ok 0x00#8 0x55#8), .read 0x07#8 (.ok 0x04#8 0x00#8)]) := by decide

/-- Section 2.1, `VERIFY`, rows 7 and 9: a failed first read ends it, a mismatch does not. -/
theorem test_verify_failures :
    outcome (block true (answering [.ends .fail, bytes 0x04#8 0x00#8] [])) 0x2000000000#40 =
      some (some (.command 0x2000000000#40 (.fail .deviceNotFound 0x18#8)), false, [.read 0x06#8 .fail]) ∧
    outcome (block true (answering [bytes 0x12#8 0x34#8, .ends .fail] [])) 0x2000000000#40 =
      some (some (.command 0x2000000000#40 (.fail .deviceNotFound 0x18#8)), false,
        [.read 0x06#8 (.ok 0x12#8 0x34#8), .read 0x07#8 .fail]) := by decide

/-- Section 2.2, rows 11, 18 and (flag bits) 7. -/
theorem test_dec :
    outcome State.reset 0x3010000000#40 =
      some (some (.command 0x3010000000#40 (.okTemp true 4096#13 0xF000#16)), false, []) ∧
    decodeTemp 0x1FF0#16 = ⟨true, 16, -16⟩ ∧ decodeTemp 0xFFFF#16 = ⟨true, 1, -1⟩ ∧
    decodeTemp 0x0FFF#16 = ⟨false, 4095, 4095⟩ ∧ decodeTemp 0x1100#16 = ⟨true, 3840, -3840⟩ := by decide

/-- Section 2.3, rows 10, 11, 14, 23 and 24. -/
theorem test_enc :
    outcome State.reset 0x310FFF0000#40 =
      some (some (.command 0x310FFF0000#40 (.okRaw 0x0FFF#16)), false, []) ∧
    outcome State.reset 0x3110000000#40 =
      some (some (.command 0x3110000000#40 (.fail .valueOutOfRange 0x00#8)), false, []) ∧
    encodeTemp (-1) = 0x1FFF#16 ∧ encodeTemp (-4096) = 0x1000#16 ∧ inRange (-4097) = false := by decide

/-- Section 2.1, `IDCMP`, rows 2, 7, 8 and 10. -/
theorem test_idcmp :
    outcome State.reset 0x32005404FF#40 = some (some (.command 0x32005404FF#40 (.okMatch true)), false, []) ∧
    outcome State.reset 0x3200548400#40 = some (some (.command 0x3200548400#40 (.okMatch false)), false, []) ∧
    idmatch 0x5400#16 0x0400#16 = false ∧ idmatch 0x0154#16 0x0400#16 = false := by decide

/-- P4, step 6: a reserved word in mode `VERIFIED`. -/
theorem test_reserved_word : outcome (block true (answering [] [])) 0x0600000000#40 =
    some (some (.command 0x0600000000#40 (.fail .illegalCommand 0x00#8)), true, []) := by decide

/-- The status codes of R180. -/
theorem test_status_codes :
    Response.okUnit.status = 0#4 ∧ (Response.fail .deviceNotFound 0x18#8).status = 1#4 ∧
    (Response.fail .busError 0x00#8).status = 2#4 ∧ (Response.fail .valueOutOfRange 0x00#8).status = 3#4 ∧
    (Response.fail .notReady 0x00#8).status = 4#4 ∧ (Response.fail .illegalCommand 0x00#8).status = 5#4 := by decide

/-- The reference device, P3 steps 1 and 7: it holds its identity and a critical limit of 80.0. -/
theorem test_reference_device :
    (Device.read 0x18#8 0x04#8 (.registerFile [(8, 0x05#8)])).1 = bytes 0x05#8 0x00#8 ∧
    (Device.write 0x18#8 0x03#8 0x1F#8 0x00#8 (.registerFile [(8, 0x05#8)])) =
      (.ends .ok, .registerFile [(6, 0x1F#8), (8, 0x05#8)]) := by decide

/-- A transaction that never ends: no response, and the next step stops (R45, U6). -/
theorem test_hang :
    outcome (block true (answering [.never] [])) 0x0500000000#40 =
      some (some (.unanswered 0x0500000000#40), true, []) ∧
    outcome { verified with waiting := some (.read 0x05#8) } 0x0500000000#40 = none := by decide

/-- R85: an operand outside its range or spelling is no command. -/
theorem test_assembler_refuses :
    assemble "ENC 32768".toList = none ∧ assemble "WRLWR -16.01C".toList = none ∧ assemble "NOP".toList = none ∧
    assemble "ENC 400".toList = some [.command 0x3101900000#40] := by decide

-- WITNESSES: states and operands that meet the hypotheses of each statement

theorem witness_DecodeOfEncodeIsTheCommand :
    ∀ i ∈ [Instr.rdupr, .rdlwr, .rdcrt, .rdamb, .wrupr (-32768), .wrlwr 32767, .wrcrt 0, .verify, .dec 0xFFFF#16, .enc (-32768),
      .idcmp 0x0000#16 0xFFFF#16], i.wf = true := by decide

theorem witness_EncodeOfDecodeClearsIgnoredBits :
    decodeWord 0x300190FFFF#40 = .ok (.dec 0x0190#16) ∧ decodeWord 0x12FFFF1234#40 = .ok (.wrupr (-1)) := by decide

theorem witness_IgnoredOperandBitsNeverMatter :
    decodeWord 0x05ABCD1234#40 = .ok .rdamb ∧
    0x05ABCD1234#40 &&& usedBits .rdamb = 0x05FFFFFFFF#40 &&& usedBits .rdamb ∧ verified.waiting = none := by decide

theorem witness_EveryCommandHasOneOpcodeRow : decodeWord 0x32FFFFFFFF#40 = .ok (.idcmp 0xFFFF#16 0xFFFF#16) := by decide

theorem witness_StepRunsTheDecodedCommand :
    (issued verified 0x0500000000#40).waiting = none ∧
    (issued verified 0x0500000000#40).pending = .command 0x0500000000#40 :: [] ∧
    decodeWord 0x0500000000#40 = .ok .rdamb := by decide

/-- The ends of every range of reserved opcodes, their defined neighbours, and a reserved word at the port. -/
theorem witness_ReservedOpcodeIsIllegalCommand :
    (∀ opc ∈ [0x00#8, 0x01#8, 0x06#8, 0x11#8, 0x15#8, 0x1F#8, 0x21#8, 0x2F#8, 0x33#8, 0xFF#8], opc ∉ definedOpcodes) ∧
    (∀ opc ∈ [0x02#8, 0x05#8, 0x12#8, 0x14#8, 0x20#8, 0x30#8, 0x32#8], opc ∈ definedOpcodes) ∧
    opcOf 0x3200000000#40 ∈ definedOpcodes ∧ opcOf 0x33FFFFFFFF#40 ∉ definedOpcodes ∧
    (issued verified 0x33FFFFFFFF#40).waiting = none ∧
    (issued verified 0x33FFFFFFFF#40).pending = .command 0x33FFFFFFFF#40 :: [] := by decide

theorem witness_ResetEventClearsReadyOnly :
    ({ verified with pending := [.reset, .reset] } : State).waiting = none ∧
    ({ verified with pending := [.reset, .reset] } : State).pending = .reset :: [.reset] := by decide

theorem witness_StepWaitsForACommand : verified.waiting = none ∧ verified.pending = [] := by decide

theorem witness_OnlyAHungTransactionStopsTheMachine :
    ({ verified with waiting := some (.read 0x05#8) } : State).waiting = some (.read 0x05#8) ∧
    verified.waiting = none := by decide

theorem witness_ConstructIsResetThenVerify :
    ({ verified with pending := construct } : State).waiting = none ∧
    ({ verified with pending := construct } : State).pending = construct ++ [] := by decide

/-- A failed first read; a failed second read; two reads that match and two that do not. -/
theorem witness_VerifyOutcomesByItsTwoReads :
    Device.read 0x18#8 0x06#8 (answering [.ends .fail] []) = (.ends .fail, answering [] []) ∧
    Device.read 0x18#8 0x06#8 (answering [bytes 0x00#8 0x54#8, .ends .fail] []) =
      (.ends (.ok 0x00#8 0x54#8), answering [.ends .fail] []) ∧
    Device.read 0x18#8 0x07#8 (answering [.ends .fail] []) = (.ends .fail, answering [] []) ∧
    Device.read 0x18#8 0x06#8 constructing.device = (.ends (.ok 0x00#8 0x54#8), answering [bytes 0x04#8 0x00#8] []) ∧
    Device.read 0x18#8 0x07#8 (answering [bytes 0x04#8 0x00#8] []) = (.ends (.ok 0x04#8 0x00#8), answering [] []) ∧
    Device.read 0x18#8 0x07#8 (answering [bytes 0x05#8 0x00#8] []) = (.ends (.ok 0x05#8 0x00#8), answering [] []) := by
  decide

/-- Refused, a failed read, a read that ends. -/
theorem witness_ReadAccessorsReadOnceAndDecode :
    (Instr.rdamb, 0x05#8) ∈ [(Instr.rdupr, 0x02#8), (Instr.rdlwr, 0x03#8), (Instr.rdcrt, 0x04#8), (Instr.rdamb, 0x05#8)] ∧
    constructing.ready = false ∧ verified.ready = true ∧
    Device.read 0x18#8 0x05#8 verified.device = (.ends (.ok 0x01#8 0x90#8), answering [] [.ends .ok]) ∧
    (block true (answering [.ends .fail] [])).ready = true ∧
    Device.read 0x18#8 0x02#8 (block true (answering [.ends .fail] [])).device = (.ends .fail, answering [] []) := by
  decide

theorem witness_AnyReadAnswerIsPossible :
    (Instr.rdupr, 0x02#8) ∈ [(Instr.rdupr, 0x02#8), (Instr.rdlwr, 0x03#8), (Instr.rdcrt, 0x04#8), (Instr.rdamb, 0x05#8)] ∧
    verified.ready = true := by decide

/-- Both ends of the range, and a negative and a non-negative temperature. -/
theorem witness_EncodeIsTheDocumentsFormula :
    ∀ t ∈ [(-4096 : Int), -1, 0, 4095], -4096 ≤ t ∧ t ≤ 4095 := by decide

theorem witness_EncodeIsModulo8192 : ∀ t ∈ [(-4096 : Int), -1, 0, 4095], -4096 ≤ t ∧ t ≤ 4095 := by decide

theorem witness_DecodeOfEncodedTemperature : ∀ t ∈ [(-4096 : Int), -1, 0, 4095], -4096 ≤ t ∧ t ≤ 4095 := by decide

/-- Refused; one past each end of the range; each end of the range with a write that ends and one that fails. -/
theorem witness_WriteAccessorsCheckEncodeAndWriteOnce :
    (Instr.wrlwr (-4096), 0x03#8) ∈
      [(Instr.wrupr (-4096), 0x02#8), (Instr.wrlwr (-4096), 0x03#8), (Instr.wrcrt (-4096), 0x04#8)] ∧
    constructing.ready = false ∧ verified.ready = true ∧ (4096 < (-4096 : Int) ∨ 4095 < (4096 : Int)) ∧
    ((-4097 : Int) < -4096 ∨ (4095 : Int) < -4097) ∧ (-4096 : Int) ≤ -4096 ∧ (-4096 : Int) ≤ 4095 ∧
    Device.write 0x18#8 0x03#8 ((encodeTemp (-4096)).extractLsb' 8 8) ((encodeTemp (-4096)).extractLsb' 0 8)
      verified.device = (.ends .ok, answering [bytes 0x01#8 0x90#8] []) ∧
    Device.write 0x18#8 0x03#8 ((encodeTemp 4095).extractLsb' 8 8) ((encodeTemp 4095).extractLsb' 0 8)
      (answering [] [.ends .fail]) = (.ends .fail, answering [] []) := by decide

theorem witness_AnyWriteAnswerIsPossible :
    (Instr.wrcrt 4095, 0x04#8) ∈ [(Instr.wrupr 4095, 0x02#8), (Instr.wrlwr 4095, 0x03#8), (Instr.wrcrt 4095, 0x04#8)] ∧
    verified.ready = true ∧ (-4096 : Int) ≤ 4095 := by decide

/-- A hung read, a hung write, and each of the two reads of `VERIFY`. -/
theorem witness_HungTransactionLeavesTheBlockInside :
    (block true (answering [.never] [])).ready = true ∧
    Device.read 0x18#8 0x05#8 (answering [.never] []) = (.never, answering [] []) ∧
    Device.write 0x18#8 0x02#8 (msb (encodeTemp (-4096))) (lsb (encodeTemp (-4096))) (answering [] [.never]) =
      (.never, answering [] []) ∧
    Device.read 0x18#8 0x06#8 (answering [.never] []) = (.never, answering [] []) ∧
    Device.read 0x18#8 0x06#8 (answering [bytes 0x00#8 0x54#8, .never] []) =
      (.ends (.ok 0x00#8 0x54#8), answering [.never] []) ∧
    Device.read 0x18#8 0x07#8 (answering [.never] []) = (.never, answering [] []) := by decide

theorem witness_AccessorsRequireReady :
    gated (.wrcrt 4800) = true ∧ constructing.ready = false ∧ gated .verify = false ∧ constructing.response = none ∧
    ∃ t, exec .verify constructing = .next t ∧ t.response = some .okUnit :=
  ⟨by decide, by decide, by decide, by decide, _, rfl, by decide⟩

theorem witness_CommandsRespondOnlyWithTheirRow :
    verified.response = none ∧
    (∃ t, exec .rdamb verified = .next t ∧ t.response = some (.okTemp false 400#13 0x0190#16)) ∧
    ∃ t, exec (.wrcrt 4800) verified = .next t ∧ t.response = some (.fail .valueOutOfRange 0x00#8) :=
  ⟨by decide, ⟨_, rfl, by decide⟩, _, rfl, by decide⟩

theorem witness_EveryCommandRespondsUnlessTheTransportHangs :
    verified.response = none ∧ verified.waiting = none := by decide

/-- A `DeviceNotFound`, another failure, and an `OK`. -/
theorem witness_InfoIsTheSlaveAddressOnlyWithDeviceNotFound :
    (∃ t, step (issued (block true (answering [.ends .fail] [])) 0x2000000000#40) = .next t ∧
      t.history = [] ++ [.command 0x2000000000#40 (.fail .deviceNotFound 0x18#8)]) ∧
    (∃ t, step (issued constructing 0x0500000000#40) = .next t ∧
      t.history = [] ++ [.command 0x0500000000#40 (.fail .notReady 0x00#8)]) ∧
    ∃ t, step (issued constructing 0x2000000000#40) = .next t ∧
      t.history = [] ++ [.command 0x2000000000#40 .okUnit] :=
  ⟨⟨_, rfl, by decide⟩, ⟨_, rfl, by decide⟩, _, rfl, by decide⟩

/-- A failing `VERIFY`, a value out of range, a refused accessor, a failed read. -/
theorem witness_FailuresArePrecise :
    (∃ t, exec .verify (block true (answering [.ends .fail] [])) = .next t ∧
      t.response = some (.fail .deviceNotFound 0x18#8)) ∧
    (∃ t, exec (.wrupr 4096) verified = .next t ∧ t.response = some (.fail .valueOutOfRange 0x00#8)) ∧
    (∃ t, exec .rdcrt constructing = .next t ∧ t.response = some (.fail .notReady 0x00#8)) ∧
    ∃ t, exec .rdlwr (block true (answering [.ends .fail] [])) = .next t ∧
      t.response = some (.fail .busError 0x00#8) :=
  ⟨⟨_, rfl, by decide⟩, ⟨_, rfl, by decide⟩, ⟨_, rfl, by decide⟩, _, rfl, by decide⟩

/-- Commands of the three shapes: pure, reading, writing; and `VERIFY`. -/
theorem witness_CommandsLeaveTheRestUnchanged :
    (∃ t, exec (.idcmp 0x0054#16 0x0400#16) verified = .next t ∧ t.ready = true) ∧
    (∃ t, exec .rdupr verified = .next t ∧ t.events.length = 1) ∧
    (∃ t, exec (.wrlwr (-256)) verified = .next t ∧ t.events.length = 1) ∧
    ∃ t, exec .verify constructing = .next t ∧ t.events.length = 2 :=
  ⟨⟨_, rfl, by decide⟩, ⟨_, rfl, by decide⟩, ⟨_, rfl, by decide⟩, _, rfl, by decide⟩

/-- A command that writes a register, and one that writes none. -/
theorem witness_RegisterFileBytesElsewhereAreUnchanged :
    (∃ t, exec (.wrupr 488) (block true (.registerFile [(8, 0x05#8)])) = .next t ∧
      t.device = .registerFile [(4, 0x01#8), (5, 0xE8#8), (8, 0x05#8)]) ∧
    WritesRegister (.wrupr 488) 0x02#8 488 ∧
    (∃ t, exec .rdcrt (block true (.registerFile [(8, 0x05#8)])) = .next t ∧
      t.device = .registerFile [(8, 0x05#8)]) ∧
    ∀ (reg : Byte) (x : Int), ¬ WritesRegister .rdcrt reg x :=
  ⟨⟨_, rfl, by decide⟩, .upper 488, ⟨_, rfl, by decide⟩, fun _ _ h => nomatch h⟩

/-- Both ends of the range. -/
theorem witness_ThresholdReadsBackFromTheReferenceDevice :
    (block true (.registerFile [(8, 0x05#8)])).device = .registerFile [(8, 0x05#8)] ∧
    Memory.wf [(8, 0x05#8)] = true ∧ (block true (.registerFile [(8, 0x05#8)])).ready = true ∧
    ∀ t ∈ [(-4096 : Int), 4095], -4096 ≤ t ∧ t ≤ 4095 := by decide

/-- A reset, a `VERIFY` that ends `OK`, one that fails; each changes the mode. -/
theorem witness_OnlyResetAndVerifyChangeTheMode :
    (∃ t, step { verified with pending := [.reset] } = .next t ∧ t.mode ≠ verified.mode) ∧
    (∃ t, step (issued constructing 0x2000000000#40) = .next t ∧ decodeWord 0x2000000000#40 = .ok .verify ∧
      t.history = [] ++ [.command 0x2000000000#40 .okUnit] ∧ t.mode ≠ constructing.mode) ∧
    ∃ t, step (issued (block true (answering [.ends .fail] [])) 0x2000000000#40) = .next t ∧
      t.history = [] ++ [.command 0x2000000000#40 (.fail .deviceNotFound 0x18#8)] ∧ t.mode ≠ verified.mode :=
  ⟨⟨_, rfl, by decide⟩, ⟨_, rfl, by decide, by decide, by decide⟩, _, rfl, by decide, by decide⟩

theorem witness_EveryStepIsARowOfTheTables :
    (∃ t, (issued verified 0x0500000000#40).pending = .command 0x0500000000#40 :: [] ∧
      step (issued verified 0x0500000000#40) = .next t) ∧
    ∃ t, ({ verified with pending := [.reset] } : State).pending = .reset :: [] ∧
      step { verified with pending := [.reset] } = .next t :=
  ⟨⟨_, rfl, rfl⟩, _, rfl, rfl⟩

theorem witness_EveryRowOfTheTablesCanHappen :
    verified.response = none ∧
    Answers .rdamb verified.ready [.read 0x05#8 .fail] true (some (.fail .busError 0x00#8)) :=
  ⟨rfl, .readFails .rdamb 0x05#8 .ambient⟩

/-- The account of `VERIFY` and `RDAMB` of 95_test_vectors.md P1. -/
theorem afterTwo_accounted : afterTwo.accounted :=
  ⟨rfl, .more true true _ _ _ _
    (.more false true _ _ _ _ .nothing
      (.answered false true 0x2000000000#40 .verify _ .okUnit rfl (.verifyMatches false 0x00#8)))
    (.answered true true 0x0500000000#40 .rdamb [.read 0x05#8 (.ok 0xC1#8 0x94#8)] (closedTemp 0xC194#16) rfl
      (.readEnds .rdamb 0x05#8 0xC1#8 0x94#8 .ambient))⟩

/-- The account of a refused accessor. -/
theorem afterRefusal_accounted : afterRefusal.accounted :=
  ⟨rfl, .more false false _ _ _ _ .nothing
    (.answered false false 0x0500000000#40 .rdamb [] (.fail .notReady 0x00#8) rfl
      (.readNotReady .rdamb 0x05#8 .ambient))⟩

theorem witness_StepKeepsTheAccount :
    (issued afterTwo 0x3200540400#40).accounted ∧ ∃ t, step (issued afterTwo 0x3200540400#40) = .next t :=
  ⟨afterTwo_accounted, _, rfl⟩

theorem witness_ReadyIsTheLastVerdict : afterTwo.accounted ∧ afterRefusal.accounted :=
  ⟨afterTwo_accounted, afterRefusal_accounted⟩

/-- An accessor that ran, and one that was refused. -/
theorem witness_NoAccessorRanUnverified :
    (afterTwo.accounted ∧
      afterTwo.history = [.command 0x2000000000#40 .okUnit] ++ .command 0x0500000000#40 (closedTemp 0xC194#16) :: [] ∧
      decodeWord 0x0500000000#40 = .ok .rdamb ∧ gated .rdamb = true ∧
      verdictOf [.command 0x2000000000#40 .okUnit] = true) ∧
    afterRefusal.accounted ∧
      afterRefusal.history = [] ++ .command 0x0500000000#40 (.fail .notReady 0x00#8) :: [] ∧ verdictOf [] = false :=
  ⟨⟨afterTwo_accounted, rfl, rfl, rfl, rfl⟩, afterRefusal_accounted, rfl, rfl⟩

/-- `VERIFY` then `RDAMB`: the accessor ran. -/
theorem afterTwo_gated : GatedHistory afterTwo.history := by
  intro before after cw i hd hg
  rcases before with _ | ⟨a, _ | ⟨b, rest⟩⟩ <;> constructor <;> intros <;>
    simp_all [afterTwo, block, verdictOf, verdictAfter, closedTemp]
  · next r h =>
    obtain ⟨⟨rfl, -⟩, -⟩ := h
    cases hd.symm.trans (show decodeWord 0x2000000000#40 = .ok .verify from rfl)
    cases hg
  · next r h =>
    obtain ⟨rfl, ⟨-, rfl⟩, -⟩ := h
    decide

/-- An accessor refused before any `VERIFY`. -/
theorem afterRefusal_gated : GatedHistory afterRefusal.history := by
  intro before after cw i hd hg
  rcases before with _ | ⟨a, rest⟩ <;> constructor <;> intros <;> simp_all [afterRefusal, block, verdictOf]

/-- An accessor next, in either mode, and a `VERIFY` next. -/
theorem witness_StepKeepsReadyTheLastVerdict :
    (issued afterRefusal 0x2000000000#40).ready = verdictOf (issued afterRefusal 0x2000000000#40).history ∧
    (∃ t, step (issued { afterRefusal with device := constructing.device } 0x2000000000#40) = .next t ∧ t.ready = true) ∧
    (issued afterTwo 0x2000000000#40).ready = verdictOf (issued afterTwo 0x2000000000#40).history ∧
    ∃ t, step (issued { afterTwo with device := answering [.ends .fail] [] } 0x2000000000#40) = .next t ∧ t.ready = false :=
  ⟨rfl, ⟨_, rfl, by decide⟩, rfl, _, rfl, by decide⟩

/-- An accessor that is refused next, and one that runs next. -/
theorem witness_StepKeepsAccessorsGated :
    (afterRefusal.ready = verdictOf afterRefusal.history ∧ GatedHistory afterRefusal.history ∧
      ∃ t, step (issued afterRefusal 0x0500000000#40) = .next t ∧ t.history.length = 2) ∧
    afterTwo.ready = verdictOf afterTwo.history ∧ GatedHistory afterTwo.history ∧
      ∃ t, step (issued { afterTwo with device := verified.device } 0x0500000000#40) = .next t ∧ t.history.length = 3 :=
  ⟨⟨rfl, afterRefusal_gated, _, rfl, by decide⟩, rfl, afterTwo_gated, _, rfl, by decide⟩

theorem witness_StepKeepsTheTrafficLegal :
    (issued { afterTwo with device := answering [] [.ends .ok] } 0x1201E80000#40).trafficLegal ∧
    ∃ t, step (issued { afterTwo with device := answering [] [.ends .ok] } 0x1201E80000#40) = .next t ∧
      t.events.length = 4 :=
  ⟨by unfold State.trafficLegal; decide, _, rfl, by decide⟩

theorem witness_StepKeepsTheDeviceCanonical :
    (issued (block true (.registerFile [(8, 0x05#8)])) 0x1400000000#40).device.wf = true ∧
    ∃ t, step (issued (block true (.registerFile [(8, 0x05#8)])) 0x1400000000#40) = .next t ∧
      t.device = .registerFile [] :=
  ⟨by decide, _, rfl, by decide⟩

theorem witness_StepLeavesNoResponseBehind :
    (issued verified 0x0500000000#40).response = none ∧ ∃ t, step (issued verified 0x0500000000#40) = .next t :=
  ⟨by decide, _, rfl⟩

theorem witness_StepReadsNoRecordOfThePast : ∃ t, step (issued verified 0x0500000000#40) = .next t := ⟨_, rfl⟩

/-- Both ends of the container, and a degree figure that is no multiple of 0.0625. -/
theorem witness_ThreeSpellingsOfATemperatureAgree :
    fitsOperand (-32768) = true ∧ fitsOperand 32767 = true ∧ (160100 : Int) % 625 ≠ 0 := by decide

end Sys2Proof.Tests
end

section
/-! PROOFS. The scope family (R9, R184, R200): every accessor passes the gate exactly when the verdict before it is 1, said of the
machine's steps and of the account; and a write accessor that runs may be answered either way.

Both gate statements go through one predicate of a single history entry, `GatedEntry`. -/

namespace Sys2Proof.Machine

-- THE GATE OF A HISTORY, ONE ENTRY AT A TIME

/-- The gate rule for one more entry of the history, `v` the verdict of what stands before it (R184, R200). -/
def GatedEntry (v : Bool) (d : Done) : Prop :=
  ∀ (cw : CommandWord) (i : Instr), decodeWord cw = .ok i → gated i = true →
    (∀ r, d = .command cw r → (r = .fail .notReady 0x00#8 ↔ v = false)) ∧ (d = .unanswered cw → v = true)

theorem gatedHistory_nil : GatedHistory [] := by
  intro before after cw i _ _
  constructor <;> simp

/-- One more gated entry keeps a history gated: an entry of the longer history is the new one or stood there before. -/
theorem gatedHistory_concat {h : List Done} {d : Done} (hh : GatedHistory h) (hd : GatedEntry (verdictOf h) d) :
    GatedHistory (h ++ [d]) := by
  intro before after cw i decodes isGated
  rcases List.eq_nil_or_concat' after with rfl | ⟨after', last, rfl⟩
  · have parts : ∀ x, h ++ [d] = before ++ [x] → h = before ∧ d = x := fun x hx => by simpa using hx
    obtain ⟨answered, unanswered⟩ := hd cw i decodes isGated
    constructor
    · intro r hr
      obtain ⟨rfl, hd'⟩ := parts _ hr
      exact answered r hd'
    · intro hu
      obtain ⟨rfl, hd'⟩ := parts _ hu
      exact unanswered hd'
  · have parts : ∀ x, h ++ [d] = before ++ x :: (after' ++ [last]) → h = before ++ x :: after' := fun x hx => by
      rw [← List.cons_append, ← List.append_assoc] at hx
      exact (List.append_inj' hx rfl).1
    obtain ⟨answered, unanswered⟩ := hh before after' cw i decodes isGated
    exact ⟨fun r hr => answered r (parts _ hr), fun hu => unanswered (parts _ hu)⟩

theorem gatedEntry_reset (v : Bool) : GatedEntry v .reset := by
  intro cw i _ _
  constructor <;> simp

/-- What is recorded of a command is gated when its response is `NotReady` exactly with the verdict 0: then one without a
response, which is not `NotReady`, had the verdict 1. -/
theorem gatedEntry_doneOf {v : Bool} {cw : CommandWord} {response : Option Response}
    (h : ∀ i, decodeWord cw = .ok i → gated i = true →
      (response = some (.fail .notReady 0x00#8) ↔ v = false)) :
    GatedEntry v (doneOf cw response) := by
  intro cw' i decodes isGated
  cases response with
  | none =>
    refine ⟨by simp, fun hu => ?_⟩
    obtain rfl : cw = cw' := by simpa using hu
    simpa using h i decodes isGated
  | some r =>
    refine ⟨fun r' hr => ?_, by simp⟩
    obtain ⟨rfl, rfl⟩ : cw = cw' ∧ r = r' := by simpa using hr
    simpa using h i decodes isGated

-- NO COMMAND TOUCHES THE HISTORY

theorem memRead_history (reg : Byte) (s : State) : (memRead reg s).2.history = s.history := by
  rcases memRead_cases reg s with ⟨r, d, -, e⟩ | ⟨d, -, e⟩ <;> rw [e]

@[simp] theorem constructionFails_history (s : State) : (constructionFails s).history = s.history := rfl

@[simp] theorem constructionVerdict_history (man dev : Raw) (s : State) :
    (constructionVerdict man dev s).history = s.history := by
  unfold constructionVerdict
  split <;> rfl

theorem verifyIdentity_history (s : State) : (verifyIdentity s).history = s.history := by
  unfold verifyIdentity
  have first := memRead_history Config.regManuf s
  split
  · next h1 => rwa [h1] at first
  · next h1 => rwa [h1] at first
  · next s1 h1 =>
    rw [h1] at first
    have second := memRead_history Config.regDevId s1
    split <;> next h2 => rw [h2] at second; simpa using second.trans first

theorem rdtemp_history (reg : Byte) (s : State) : (rdtemp reg s).history = s.history := by
  rcases rdtemp_cases reg s with ⟨-, e⟩ | ⟨-, d, -, e⟩ | ⟨-, b0, b1, d, -, e⟩ | ⟨-, d, -, e⟩ <;> simp [e]

theorem wrtemp_history (reg : Byte) (t : Int) (s : State) : (wrtemp reg t s).history = s.history := by
  rcases wrtemp_cases reg t s with ⟨-, e⟩ | ⟨-, -, e⟩ | ⟨-, -, w, d, -, e⟩ | ⟨-, -, d, -, e⟩ <;> simp [e]

/-- No command changes what the host has had back (log entry 1). -/
theorem exec_history {i : Instr} {s u : State} (hu : exec i s = .next u) : u.history = s.history := by
  cases i with
  | rdupr | rdlwr | rdcrt | rdamb => cases hu; exact rdtemp_history _ s
  | wrupr t | wrlwr t | wrcrt t => cases hu; exact wrtemp_history _ t s
  | verify => cases hu; exact verifyIdentity_history s
  | dec | idcmp => cases hu; rfl
  | enc t =>
    cases hu
    split <;> rfl

-- THE GATE OF THE MACHINE

/-- The gated commands are the read and the write accessors (R184). -/
theorem accessor_of_gated {i : Instr} (h : gated i = true) :
    (∃ reg, ReadsRegister i reg) ∨ ∃ reg t, WritesRegister i reg t := by
  cases i with
  | rdupr => exact .inl ⟨_, .upper⟩
  | rdlwr => exact .inl ⟨_, .lower⟩
  | rdcrt => exact .inl ⟨_, .critical⟩
  | rdamb => exact .inl ⟨_, .ambient⟩
  | wrupr t => exact .inr ⟨_, t, .upper t⟩
  | wrlwr t => exact .inr ⟨_, t, .lower t⟩
  | wrcrt t => exact .inr ⟨_, t, .critical t⟩
  | verify | dec | enc | idcmp => cases h

theorem rdtemp_notReady_iff (reg : Byte) {s : State} (h : s.response = none) :
    (rdtemp reg s).response = some (.fail .notReady 0x00#8) ↔ s.ready = false := by
  rcases rdtemp_cases reg s with ⟨hr, e⟩ | ⟨hr, d, _, e⟩ | ⟨hr, b0, b1, d, _, e⟩ | ⟨hr, d, _, e⟩ <;>
    simp [e, hr, h, tempResponse]

theorem wrtemp_notReady_iff (reg : Byte) (t : Int) {s : State} (h : s.response = none) :
    (wrtemp reg t s).response = some (.fail .notReady 0x00#8) ↔ s.ready = false := by
  rcases wrtemp_cases reg t s with ⟨hr, e⟩ | ⟨hr, _, e⟩ | ⟨hr, _, w, d, _, e⟩ | ⟨hr, _, d, _, e⟩
  · simp [e, hr]
  · simp [e, hr]
  · cases w <;> simp [e, hr]
  · simp [e, hr, h]

/-- An accessor responds `NotReady` exactly when `READY` is 0 (R184). -/
theorem exec_notReady_iff {i : Instr} {s u : State} (isGated : gated i = true) (h : s.response = none)
    (hu : exec i s = .next u) : u.response = some (.fail .notReady 0x00#8) ↔ s.ready = false := by
  rcases accessor_of_gated isGated with ⟨reg, reads⟩ | ⟨reg, t, writes⟩
  · rw [exec_of_readsRegister reads] at hu
    cases hu
    exact rdtemp_notReady_iff reg h
  · rw [exec_of_writesRegister writes] at hu
    cases hu
    exact wrtemp_notReady_iff reg t h

/-- Settles O57: a step adds to the history at most one entry, and that one is gated by `READY`, which is the verdict. -/
theorem stepKeepsAccessorsGated : Obligations.StepKeepsAccessorsGated := by
  intro s t ready_eq gatedBefore hstep
  obtain ⟨-, ⟨-, rfl⟩ | ⟨rest, -, rfl⟩ | ⟨cw, rest, e, -, hd, rfl⟩ | ⟨cw, rest, i, u, -, hd, hu, rfl⟩⟩ :=
    step_next_cases hstep
  · exact gatedBefore
  · exact gatedHistory_concat gatedBefore (gatedEntry_reset _)
  · refine gatedHistory_concat gatedBefore (gatedEntry_doneOf fun i hi => ?_)
    rw [hd] at hi
    cases hi
  · rw [deliver_history, exec_history hu, takeCommand_history]
    refine gatedHistory_concat gatedBefore (gatedEntry_doneOf fun j hj isGated => ?_)
    rw [hd] at hj
    cases hj
    rw [← ready_eq]
    exact exec_notReady_iff (s := takeCommand rest s) isGated rfl hu

-- THE GATE OF THE ACCOUNT

/-- The rows of the tables refuse an accessor with `NotReady` exactly when `READY` is 0 (R128, R159, R184). -/
theorem Answers.notReady_iff {i : Instr} {v w : Bool} {es : List BusEvent} {response : Option Response}
    (row : Answers i v es w response) (isGated : gated i = true) :
    response = some (.fail .notReady 0x00#8) ↔ v = false := by
  cases row with
  | readNotReady | writeNotReady => simp
  | readFails | readEnds | readNeverEnds => simp [closedTemp]
  | writeOutOfRange | writeFails | writeEnds | writeNeverEnds => simp
  | idcmp | dec | encInRange | encOutOfRange => cases isGated
  | verifyFirstFails | verifySecondFails | verifyMatches | verifyDiffers => cases isGated
  | verifyFirstNeverEnds | verifySecondNeverEnds => cases isGated

/-- A word that decodes carries a defined opcode (R77, R82). -/
theorem opcOf_mem_definedOpcodes {cw : CommandWord} {i : Instr} (h : decodeWord cw = .ok i) :
    opcOf cw ∈ definedOpcodes := by
  have rows := decodeWord_ok_cases h
  simp only [definedOpcodes, List.mem_cons, List.not_mem_nil, or_false]
  tauto

theorem verdictAfter_verify {cw : CommandWord} (h : decodeWord cw = .ok .verify) (v : Bool) (r : Response) :
    verdictAfter v (.command cw r) = (r == .okUnit) := by simp [verdictAfter, h]

/-- No command but `VERIFY` touches the verdict (R20, R201). -/
theorem verdictAfter_of_not_verify {cw : CommandWord} (h : decodeWord cw ≠ .ok .verify) (v : Bool) (r : Response) :
    verdictAfter v (.command cw r) = v := by
  -- the match's default arm: `simp` takes its side condition, that the word is no `VERIFY`, from `h`
  simp only [verdictAfter]

/-- A row of `VERIFY` with a response leaves `READY` 1 exactly when it responds `OK` (R106). -/
theorem Answers.ready_of_verify {v w : Bool} {es : List BusEvent} {r : Response}
    (row : Answers .verify v es w (some r)) : w = (r == .okUnit) := by
  cases row with
  | verifyFirstFails | verifySecondFails | verifyMatches | verifyDiffers => rfl
  | readNotReady | readFails | readEnds => next reads => cases reads
  | writeNotReady | writeOutOfRange | writeFails | writeEnds => next writes => cases writes

/-- No row of another command changes `READY` (R51, R201). -/
theorem Answers.ready_of_not_verify {i : Instr} {v w : Bool} {es : List BusEvent} {response : Option Response}
    (row : Answers i v es w response) (h : i ≠ .verify) : w = v := by
  cases row with
  | idcmp | dec | encInRange | encOutOfRange => rfl
  | readNotReady | readFails | readEnds | readNeverEnds => rfl
  | writeNotReady | writeOutOfRange | writeFails | writeEnds | writeNeverEnds => rfl
  | verifyFirstFails | verifySecondFails | verifyMatches | verifyDiffers => exact absurd rfl h
  | verifyFirstNeverEnds | verifySecondNeverEnds => exact absurd rfl h

/-- A row without a response leaves `READY` as it was (log entries 3 and 11). -/
theorem Answers.ready_of_unanswered {i : Instr} {v w : Bool} {es : List BusEvent}
    (row : Answers i v es w none) : w = v := by
  cases row <;> rfl

/-- `READY` after anything the host did is the verdict that its entry leaves (R20, R108, R201). -/
theorem Served.ready_eq_verdictAfter {v w : Bool} {d : Done} {es : List BusEvent} (served : Served v d es w) :
    w = verdictAfter v d := by
  cases served with
  | reset => rfl
  | reserved cw undefinedOpcode =>
    exact (verdictAfter_of_not_verify (fun h => undefinedOpcode (opcOf_mem_definedOpcodes h)) v _).symm
  | answered _ cw i es r decodes row =>
    by_cases h : i = .verify
    · subst h
      rw [verdictAfter_verify decodes]
      exact row.ready_of_verify
    · rw [verdictAfter_of_not_verify (by simpa [decodes] using h)]
      exact row.ready_of_not_verify h
  | unanswered _ cw i es decodes row => exact row.ready_of_unanswered

/-- Anything the host did is gated by `READY` before it (R184). -/
theorem Served.gatedEntry {v w : Bool} {d : Done} {es : List BusEvent} (served : Served v d es w) :
    GatedEntry v d := by
  cases served with
  | reset => exact gatedEntry_reset v
  | reserved cw undefinedOpcode =>
    exact gatedEntry_doneOf (response := some _) fun i hi => absurd (opcOf_mem_definedOpcodes hi) undefinedOpcode
  | answered _ cw i es r decodes row =>
    exact gatedEntry_doneOf (response := some r) fun j hj isGated => by
      cases decodes.symm.trans hj
      exact row.notReady_iff isGated
  | unanswered _ cw i es decodes row =>
    exact gatedEntry_doneOf (response := none) fun j hj isGated => by
      cases decodes.symm.trans hj
      exact row.notReady_iff isGated

/-- In an account `READY` is the verdict of the history (R20). -/
theorem Account.ready_eq_verdictOf {v : Bool} {h : List Done} {es : List BusEvent} (account : Account v h es) :
    v = verdictOf h := by
  induction account with
  | nothing => rfl
  | more v w h es fs d before row ih => rw [verdictOf_concat, ← ih, row.ready_eq_verdictAfter]

/-- In an account every accessor passed the gate of the verdict before it (R184, R200). -/
theorem Account.gatedHistory {v : Bool} {h : List Done} {es : List BusEvent} (account : Account v h es) :
    GatedHistory h := by
  induction account with
  | nothing => exact gatedHistory_nil
  | more v w h es fs d before row ih =>
    have hd : GatedEntry (verdictOf h) d := before.ready_eq_verdictOf ▸ row.gatedEntry
    exact gatedHistory_concat ih hd

/-- Settles O48: the history of an accounted state is gated, by induction on the account. -/
theorem noAccessorRanUnverified : Obligations.NoAccessorRanUnverified := by
  intro s before after cw i r accounted history_eq decodes isGated
  obtain ⟨-, account⟩ := accounted
  obtain ⟨answered, -⟩ := account.gatedHistory before after cw i decodes isGated
  exact answered r history_eq

-- A WRITE ACCESSOR THAT RUNS

/-- The response of a write accessor whose write ended with `w` (R159). -/
def writeResponse : WriteResult → Response
  | .ok => .okUnit
  | .fail => .fail .busError 0x00#8

/-- With `READY = 1` and the temperature in range, a write that ends decides what a write accessor does (R159). -/
theorem wrtemp_of_write_ends {reg : Byte} {t : Int} {s : State} {w : WriteResult} {d : Device} (ready : s.ready = true)
    (lo : -4096 ≤ t) (hi : t ≤ 4095)
    (answer : Device.write Config.slaveAddr reg (msb (encodeTemp t)) (lsb (encodeTemp t)) s.device = (.ends w, d)) :
    wrtemp reg t s = respond (writeResponse w)
      { s with device := d
               events := s.events ++ [.write reg (msb (encodeTemp t)) (lsb (encodeTemp t)) w] } := by
  have inside := inRange_eq_true.2 ⟨lo, hi⟩
  rcases wrtemp_cases reg t s with ⟨hr, -⟩ | ⟨-, outside, -⟩ | ⟨-, -, w', d', answer', e⟩ | ⟨-, -, d', never, -⟩
  · simp [ready] at hr
  · simp [inside] at outside
  · cases answer.symm.trans answer'
    rw [e]
    cases w <;> rfl
  · cases answer.symm.trans never

/-- The three write accessors, listed with their registers (R156 to R158). -/
theorem writesRegister_of_mem {t : Int} {x : Instr × Byte}
    (h : x ∈ [(Instr.wrupr t, 0x02#8), (Instr.wrlwr t, 0x03#8), (Instr.wrcrt t, 0x04#8)]) :
    WritesRegister x.1 x.2 t := by
  simp only [List.mem_cons, List.not_mem_nil, or_false] at h
  rcases h with rfl | rfl | rfl
  · exact .upper t
  · exact .lower t
  · exact .critical t

/-- Settles O32: the device is the oracle whose one fixed answer is `w`. -/
theorem anyWriteAnswerIsPossible : Obligations.AnyWriteAnswerIsPossible := by
  intro s t x hx ready lo hi w
  refine ⟨.oracle [] [.ends w] 0, _, exec_of_writesRegister (writesRegister_of_mem hx) _, ?_⟩
  rw [wrtemp_of_write_ends (s := { s with device := .oracle [] [.ends w] 0 }) ready lo hi rfl]
  exact ⟨rfl, by cases w <;> rfl⟩

end Sys2Proof.Machine
end

section
/-! PROOFS. The state family (R20, R21, R24, R27, R31, R53, R59). What a command does to the whole state is said once, by `Ran`,
and what a step records once, by `step_next_served`; the account, the verdict, the frame, completion and the rows of responses
are read off from these two. Noninterference goes through one commuting lemma for each shared operation. -/

namespace Sys2Proof.Machine

-- THE MACHINE'S FUNCTIONS IN THE CLOSED FORMS OF THE TABLES

theorem pair_and_firstByteMask (b0 b1 : Byte) : pair b0 b1 &&& 0xFF00#16 = pair b0 0x00#8 := by
  have bytes : pair b0 b1 &&& pair 0xFF#8 0x00#8 = pair (b0 &&& 0xFF#8) (b1 &&& 0x00#8) := BitVec.and_append
  rw [BitVec.and_zero, show b0 &&& 0xFF#8 = b0 from BitVec.and_allOnes] at bytes
  exact bytes

theorem msb_eq_iff_masked (raw : Raw) (b : Byte) : msb raw = b ↔ raw &&& 0xFF00#16 = pair b 0x00#8 := by
  have masked := pair_and_firstByteMask (msb raw) (lsb raw)
  rw [pair_msb_lsb] at masked
  rw [masked]
  constructor
  · rintro rfl
    rfl
  · intro h
    simpa using congrArg msb h

theorem msb_lsb_eq_iff (raw : Raw) (b0 b1 : Byte) : msb raw = b0 ∧ lsb raw = b1 ↔ raw = pair b0 b1 := by
  constructor
  · rintro ⟨rfl, rfl⟩
    exact (pair_msb_lsb raw).symm
  · rintro rfl
    exact ⟨msb_pair b0 b1, lsb_pair b0 b1⟩

/-- The comparator in its masked form (R101). -/
theorem idmatch_eq_identityHolds (man dev : Raw) : idmatch man dev = identityHolds man dev := by
  have manufacturer : msb man = 0x00#8 ∧ lsb man = 0x54#8 ↔ man = 0x0054#16 := msb_lsb_eq_iff man _ _
  have device : msb dev = 0x04#8 ↔ dev &&& 0xFF00#16 = 0x0400#16 := msb_eq_iff_masked dev _
  rw [Bool.eq_iff_iff]
  simp only [idmatch, identityHolds, Bool.and_eq_true, beq_iff_eq, manufacturer, device]

/-- The decode in the closed forms of R123: sign bit, magnitude and sign extension of the thirteen data bits. -/
theorem decodeTemp_eq_closed (raw : Raw) :
    decodeTemp raw = ⟨raw.getLsbD 12, (f13 raw).toInt.natAbs, (f13 raw).toInt⟩ := by
  rw [decodeTemp_eq, toInt_f13, getLsbD_signBit]
  split
  · next h =>
    simp only [h, decide_true, Reading.mk.injEq, true_and, and_true]
    omega
  · next h =>
    simp only [h, decide_false, Reading.mk.injEq, true_and, and_true]
    omega

theorem tempResponse_decodeTemp (raw : Raw) : tempResponse (decodeTemp raw) = closedTemp raw := by
  rw [decodeTemp_eq_closed]
  rfl

/-- The encode in its closed form (R153). -/
theorem encodeTemp_eq_closedRaw {t : Int} (lo : -4096 ≤ t) (hi : t ≤ 4095) : encodeTemp t = closedRaw t := by
  have h := encodeTemp_toNat lo hi
  apply BitVec.eq_of_toNat_eq
  rw [closedRaw, BitVec.toNat_ofNat]
  omega

theorem inRange_eq_false {t : Int} : inRange t = false ↔ t < -4096 ∨ 4095 < t := by
  rw [← Bool.not_eq_true, inRange_eq_true]
  omega

-- WHAT A COMMAND DOES TO THE WHOLE STATE

/-- Everything `VERIFY` can do: its first or its second read fails or never ends, or both end and the verdict is formed
(R105, R106, R107). -/
theorem verifyIdentity_cases (s : State) :
    (∃ d, Device.read Config.slaveAddr Config.regManuf s.device = (.never, d) ∧
      verifyIdentity s = { s with device := d, waiting := some (.read Config.regManuf) }) ∨
    (∃ d, Device.read Config.slaveAddr Config.regManuf s.device = (.ends .fail, d) ∧
      verifyIdentity s =
        constructionFails { s with device := d, events := s.events ++ [.read Config.regManuf .fail] }) ∨
    (∃ m0 m1 d, Device.read Config.slaveAddr Config.regManuf s.device = (.ends (.ok m0 m1), d) ∧
      ((∃ d', Device.read Config.slaveAddr Config.regDevId d = (.never, d') ∧
        verifyIdentity s = { s with
          device := d', events := s.events ++ [.read Config.regManuf (.ok m0 m1)]
          waiting := some (.read Config.regDevId) }) ∨
      (∃ d', Device.read Config.slaveAddr Config.regDevId d = (.ends .fail, d') ∧
        verifyIdentity s = constructionFails { s with
          device := d'
          events := s.events ++ [.read Config.regManuf (.ok m0 m1), .read Config.regDevId .fail] }) ∨
      (∃ d0 d1 d', Device.read Config.slaveAddr Config.regDevId d = (.ends (.ok d0 d1), d') ∧
        verifyIdentity s = constructionVerdict (pair m0 m1) (pair d0 d1) { s with
          device := d'
          events := s.events ++ [.read Config.regManuf (.ok m0 m1), .read Config.regDevId (.ok d0 d1)] }))) := by
  unfold verifyIdentity
  rcases memRead_cases Config.regManuf s with ⟨_ | _, d, hd, e⟩ | ⟨d, hd, e⟩
  · next m0 m1 =>
    refine .inr (.inr ⟨m0, m1, d, hd, ?_⟩)
    rw [e]
    rcases memRead_cases Config.regDevId
        { s with device := d, events := s.events ++ [.read Config.regManuf (.ok m0 m1)] } with
      ⟨_ | _, d', hd', e'⟩ | ⟨d', hd', e'⟩
    · next d0 d1 => exact .inr (.inr ⟨d0, d1, d', hd', by simp [e']⟩)
    · exact .inr (.inl ⟨d', hd', by simp [e']⟩)
    · exact .inl ⟨d', hd', by simp [e']⟩
  · exact .inr (.inl ⟨d, hd, by rw [e]⟩)
  · exact .inl ⟨d, hd, by rw [e]⟩

/-- `Ran i s u`: from `s` the command `i` leaves `u` by a row of the tables: it responds, with the row's events and `READY`, or
stays inside a transaction with `READY` as it was; the device apart, nothing else of the state changes (R51; log entry 3). -/
inductive Ran (i : Instr) (s : State) : State → Prop where
  | responds (es : List BusEvent) (w : Bool) (d : Device) (r : Response) (row : Answers i s.ready es w (some r)) :
      Ran i s { s with ready := w, response := some r, device := d, events := s.events ++ es }
  | hangs (es : List BusEvent) (d : Device) (q : BusRequest) (row : Answers i s.ready es s.ready none) :
      Ran i s { s with waiting := some q, device := d, events := s.events ++ es }

/-- A row without events that keeps `READY` changes the response alone. -/
theorem Ran.responds_silently {i : Instr} {s : State} {r : Response} (row : Answers i s.ready [] s.ready (some r)) :
    Ran i s (respond r s) := by
  simpa [respond] using Ran.responds [] s.ready s.device r row

/-- A command whose first transaction never ends. -/
theorem Ran.hangs_at_once {i : Instr} {s : State} (d : Device) (q : BusRequest)
    (row : Answers i s.ready [] s.ready none) : Ran i s { s with waiting := some q, device := d } := by
  simpa using Ran.hangs [] d q row

theorem ran_rdtemp {i : Instr} {reg : Byte} (reads : ReadsRegister i reg) (s : State) : Ran i s (rdtemp reg s) := by
  rcases rdtemp_cases reg s with ⟨hr, e⟩ | ⟨hr, d, -, e⟩ | ⟨hr, b0, b1, d, -, e⟩ | ⟨hr, d, -, e⟩ <;> rw [e]
  · exact .responds_silently (hr ▸ .readNotReady i reg reads)
  · exact .responds _ s.ready d _ (hr ▸ .readFails i reg reads)
  · rw [tempResponse_decodeTemp]
    exact .responds _ s.ready d _ (hr ▸ .readEnds i reg b0 b1 reads)
  · exact .hangs_at_once d _ (hr ▸ .readNeverEnds i reg reads)

theorem ran_wrtemp {i : Instr} {reg : Byte} {t : Int} (writes : WritesRegister i reg t) (s : State) :
    Ran i s (wrtemp reg t s) := by
  rcases wrtemp_cases reg t s with ⟨hr, e⟩ | ⟨hr, out, e⟩ | ⟨hr, inside, w, d, -, e⟩ | ⟨hr, inside, d, -, e⟩ <;> rw [e]
  · exact .responds_silently (hr ▸ .writeNotReady i reg t writes)
  · exact .responds_silently (hr ▸ .writeOutOfRange i reg t writes (inRange_eq_false.1 out))
  · obtain ⟨lo, hi⟩ := inRange_eq_true.1 inside
    rw [encodeTemp_eq_closedRaw lo hi]
    cases w with
    | ok => exact .responds _ s.ready d _ (hr ▸ .writeEnds i reg t writes lo hi)
    | fail => exact .responds _ s.ready d _ (hr ▸ .writeFails i reg t writes lo hi)
  · obtain ⟨lo, hi⟩ := inRange_eq_true.1 inside
    exact .hangs_at_once d _ (hr ▸ .writeNeverEnds i reg t writes lo hi)

theorem idmatch_pair (m0 m1 d0 d1 : Byte) :
    idmatch (pair m0 m1) (pair d0 d1) = true ↔ m0 = 0x00#8 ∧ m1 = 0x54#8 ∧ d0 = 0x04#8 := by
  simp [idmatch, and_assoc]

theorem ran_verifyIdentity (s : State) : Ran .verify s (verifyIdentity s) := by
  rcases verifyIdentity_cases s with ⟨d, -, e⟩ | ⟨d, -, e⟩ | ⟨m0, m1, d, -, ⟨d', -, e⟩ | ⟨d', -, e⟩ | ⟨d0, d1, d', -, e⟩⟩ <;>
    rw [e]
  · exact .hangs_at_once d _ (.verifyFirstNeverEnds _)
  · exact .responds _ false d _ (.verifyFirstFails _)
  · exact .hangs _ d' _ (.verifySecondNeverEnds _ m0 m1)
  · exact .responds _ false d' _ (.verifySecondFails _ m0 m1)
  · unfold constructionVerdict
    split
    · next isMatch =>
      obtain ⟨rfl, rfl, rfl⟩ := (idmatch_pair m0 m1 d0 d1).1 isMatch
      exact .responds _ true d' _ (.verifyMatches _ d1)
    · next differs =>
      rw [idmatch_pair] at differs
      exact .responds _ false d' _ (.verifyDiffers _ m0 m1 d0 d1 differs)

/-- Every command answers a next state. -/
theorem exec_next (i : Instr) (s : State) : ∃ u, exec i s = .next u := by
  cases i <;> exact ⟨_, rfl⟩

/-- What a command does is a row of the tables, and leaves the rest of the state as it was. -/
theorem exec_ran {i : Instr} {s u : State} (hu : exec i s = .next u) : Ran i s u := by
  cases i with
  | rdupr => cases hu; exact ran_rdtemp .upper s
  | rdlwr => cases hu; exact ran_rdtemp .lower s
  | rdcrt => cases hu; exact ran_rdtemp .critical s
  | rdamb => cases hu; exact ran_rdtemp .ambient s
  | wrupr t => cases hu; exact ran_wrtemp (.upper t) s
  | wrlwr t => cases hu; exact ran_wrtemp (.lower t) s
  | wrcrt t => cases hu; exact ran_wrtemp (.critical t) s
  | verify => cases hu; exact ran_verifyIdentity s
  | dec raw =>
    cases hu
    rw [tempResponse_decodeTemp]
    exact .responds_silently (.dec raw _)
  | enc t =>
    cases hu
    split
    · next inside =>
      obtain ⟨lo, hi⟩ := inRange_eq_true.1 inside
      rw [encodeTemp_eq_closedRaw lo hi]
      exact .responds_silently (.encInRange t _ lo hi)
    · next outside =>
      exact .responds_silently (.encOutOfRange t _ (inRange_eq_false.1 (by simpa using outside)))
  | idcmp man dev =>
    cases hu
    rw [idmatch_eq_identityHolds]
    exact .responds_silently (.idcmp man dev _)

-- WHAT A STEP RECORDS

/-- A word that the decoder refuses carries a reserved opcode (R82). -/
theorem opcOf_not_mem_of_error {cw : CommandWord} {e : DecodeError} (h : decodeWord cw = .error e) :
    opcOf cw ∉ definedOpcodes := by
  unfold decodeWord at h
  split at h
  case h_12 => simp_all [definedOpcodes]
  all_goals cases h

/-- A command's record is a row of what the host can have been served with. -/
theorem Ran.served {i : Instr} {s u : State} {cw : CommandWord} (ran : Ran i s u) (none_before : s.response = none)
    (decodes : decodeWord cw = .ok i) :
    ∃ es, u.events = s.events ++ es ∧ Served s.ready (doneOf cw u.response) es u.ready := by
  cases ran with
  | responds es w d r row => exact ⟨es, rfl, .answered _ w cw i es r decodes row⟩
  | hangs es d q row => exact ⟨es, rfl, none_before ▸ .unanswered _ _ cw i es decodes row⟩

/-- Everything a step records: nothing when it waits, and else one entry with its bus events, a row of `Served`. -/
theorem step_next_served {s t : State} (h : step s = .next t) :
    (s.pending = [] ∧ t = s) ∨
      ∃ x, s.pending = x :: t.pending ∧
        ∃ d es, t.history = s.history ++ [d] ∧ t.events = s.events ++ es ∧ Served s.ready d es t.ready := by
  obtain ⟨-, idle | ⟨rest, hp, rfl⟩ | ⟨cw, rest, e, hp, hd, rfl⟩ | ⟨cw, rest, i, u, hp, hd, hu, rfl⟩⟩ := step_next_cases h
  · exact .inl idle
  · exact .inr ⟨_, hp, .reset, [], rfl, (List.append_nil _).symm, .reset _⟩
  · exact .inr ⟨_, hp, _, [], rfl, (List.append_nil _).symm, .reserved _ cw (opcOf_not_mem_of_error hd)⟩
  · obtain ⟨es, events_eq, served⟩ := (exec_ran hu).served rfl hd
    have pending_eq : u.pending = rest := by cases exec_ran hu <;> rfl
    refine .inr ⟨.command cw, by rw [hp, deliver_pending, pending_eq], _, es, ?_, events_eq, served⟩
    rw [deliver_history, exec_history hu, takeCommand_history]

/-- Settles O52: a reset and waiting leave the response as it was, and a command's is returned. -/
theorem stepLeavesNoResponseBehind : Obligations.StepLeavesNoResponseBehind := by
  intro s t none_before hstep
  obtain ⟨-, ⟨-, rfl⟩ | ⟨rest, -, rfl⟩ | ⟨cw, rest, e, -, -, rfl⟩ | ⟨cw, rest, i, u, -, -, -, rfl⟩⟩ :=
    step_next_cases hstep
  · exact none_before
  · exact none_before
  · rfl
  · rfl

/-- Settles O45: a step adds to the account at most one entry, which is a row of the tables. -/
theorem stepKeepsTheAccount : Obligations.StepKeepsTheAccount := by
  intro s t ⟨none_before, account⟩ hstep
  refine ⟨stepLeavesNoResponseBehind s t none_before hstep, ?_⟩
  obtain ⟨-, rfl⟩ | ⟨x, -, d, es, history_eq, events_eq, served⟩ := step_next_served hstep
  · exact account
  · rw [history_eq, events_eq]
    exact .more _ _ _ _ _ _ account served

/-- Settles O46. -/
theorem resetIsAccounted : Obligations.ResetIsAccounted := ⟨rfl, .nothing⟩

/-- Settles O47: said of the account, by induction, in `Account.ready_eq_verdictOf`. -/
theorem readyIsTheLastVerdict : Obligations.ReadyIsTheLastVerdict := by
  intro s ⟨_, account⟩
  exact account.ready_eq_verdictOf

/-- Settles O56: the one entry a step adds leaves `READY` the verdict that the entry makes. -/
theorem stepKeepsReadyTheLastVerdict : Obligations.StepKeepsReadyTheLastVerdict := by
  intro s t ready_eq hstep
  obtain ⟨-, rfl⟩ | ⟨x, -, d, es, history_eq, -, served⟩ := step_next_served hstep
  · exact ready_eq
  · rw [history_eq, verdictOf_concat, ← ready_eq]
    exact served.ready_eq_verdictAfter

/-- Settles O58. -/
theorem resetHasNoVerdict : Obligations.ResetHasNoVerdict := ⟨rfl, gatedHistory_nil⟩

/-- Settles O9. -/
theorem resetLeavesTheBlockUnverified : Obligations.ResetLeavesTheBlockUnverified := ⟨rfl, rfl, rfl, rfl, rfl, rfl⟩

-- RESPONSES, COMPLETION AND FRAME OF THE COMMANDS

/-- Every response in the rows of the tables is one the command's own row allows (R27, R191). -/
theorem Answers.response_allowed {i : Instr} {v w : Bool} {es : List BusEvent} {r : Response}
    (row : Answers i v es w (some r)) : mayRespond i r = true := by
  cases row with
  | idcmp | dec | encInRange | encOutOfRange => rfl
  | verifyFirstFails | verifySecondFails | verifyMatches | verifyDiffers => rfl
  | readNotReady | readFails | readEnds => next reads => cases reads <;> rfl
  | writeNotReady | writeOutOfRange | writeFails | writeEnds => next writes => cases writes <;> rfl

/-- Settles O35: a command that responds does so by a row of the tables. -/
theorem commandsRespondOnlyWithTheirRow : Obligations.CommandsRespondOnlyWithTheirRow := by
  intro i s t r none_before hexec hr
  cases exec_ran hexec with
  | responds es w d r' row =>
    obtain rfl : r' = r := by simpa using hr
    exact row.response_allowed
  | hangs es d q row => exact absurd (none_before.symm.trans hr) (by simp)

/-- Settles O36: a command responds with no transaction open, or stays inside one without a response. -/
theorem everyCommandRespondsUnlessTheTransportHangs : Obligations.EveryCommandRespondsUnlessTheTransportHangs := by
  intro i s none_before not_waiting
  obtain ⟨t, hexec⟩ := exec_next i s
  refine ⟨t, hexec, ?_⟩
  cases exec_ran hexec with
  | responds es w d r row => exact .inl ⟨⟨r, rfl⟩, not_waiting⟩
  | hangs es d q row => exact .inr ⟨none_before, q, rfl⟩

/-- The three commands without the bus change the response alone (R49, R104, R127, R155). -/
theorem exec_frame_of_noBus {i : Instr} {s t : State}
    (noBus : (∃ man dev, i = .idcmp man dev) ∨ (∃ raw, i = .dec raw) ∨ ∃ x, i = .enc x) (hexec : exec i s = .next t) :
    ∃ r, t = respond r s := by
  obtain ⟨man, dev, rfl⟩ | ⟨raw, rfl⟩ | ⟨x, rfl⟩ := noBus
  · cases hexec; exact ⟨_, rfl⟩
  · cases hexec; exact ⟨_, rfl⟩
  · cases hexec
    split <;> exact ⟨_, rfl⟩

/-- Settles O39: what `Ran` says stays, and for `READY` and the commands without the bus what their rows say. -/
theorem commandsLeaveTheRestUnchanged : Obligations.CommandsLeaveTheRestUnchanged := by
  intro i s t hexec
  have noBus_frame : (∃ man dev, i = .idcmp man dev) ∨ (∃ raw, i = .dec raw) ∨ (∃ x, i = .enc x) →
      t.device = s.device ∧ t.events = s.events ∧ t.waiting = s.waiting := by
    intro noBus
    obtain ⟨r, rfl⟩ := exec_frame_of_noBus noBus hexec
    exact ⟨rfl, rfl, rfl⟩
  cases exec_ran hexec with
  | responds es w d r row => exact ⟨rfl, rfl, row.ready_of_not_verify, ⟨es, rfl⟩, noBus_frame⟩
  | hangs es d q row => exact ⟨rfl, rfl, fun _ => rfl, ⟨es, rfl⟩, noBus_frame⟩

-- WHAT A STEP IS, FORWARD

section
variable {s : State} {rest : List HostInput}

theorem step_of_nothing_issued (open_none : s.waiting = none) (issued : s.pending = []) : step s = .next s := by
  simp [step, nextInput, open_none, issued, idleStep]

theorem step_of_reset (open_none : s.waiting = none) (issued : s.pending = .reset :: rest) :
    step s = .next (resetEvent rest s) := by
  simp [step, nextInput, open_none, issued]

theorem step_of_reserved {cw : CommandWord} {e : DecodeError} (open_none : s.waiting = none)
    (issued : s.pending = .command cw :: rest) (refuses : decodeWord cw = .error e) :
    step s = .next (deliver cw (illegalCommand (takeCommand rest s))) := by
  simp [step, nextInput, open_none, issued, refuses]

theorem step_of_command {cw : CommandWord} {i : Instr} {u : State} (open_none : s.waiting = none)
    (issued : s.pending = .command cw :: rest) (decodes : decodeWord cw = .ok i)
    (hu : exec i (takeCommand rest s) = .next u) : step s = .next (deliver cw u) := by
  simp [step, nextInput, open_none, issued, decodes, hu, returnToHost]

end

/-- Settles O6: the command answers a next state, and `deliver` returns its response. -/
theorem stepRunsTheDecodedCommand : Obligations.StepRunsTheDecodedCommand := by
  intro s cw rest i open_none issued decodes
  obtain ⟨u, hu⟩ := exec_next i (takeCommand rest s)
  exact ⟨u, hu, step_of_command open_none issued decodes hu⟩

-- NO OPERATION READS THE RECORDS

theorem memRead_recalling (reg : Byte) (s past : State) :
    memRead reg (s.recalling past) = ((memRead reg s).1, (memRead reg s).2.recalling past) := by
  have same_device : (s.recalling past).device = s.device := rfl
  unfold memRead
  rw [same_device]
  split <;> simp [State.recalling]

theorem memWrite_recalling (reg b0 b1 : Byte) (s past : State) :
    memWrite reg b0 b1 (s.recalling past) = ((memWrite reg b0 b1 s).1, (memWrite reg b0 b1 s).2.recalling past) := by
  have same_device : (s.recalling past).device = s.device := rfl
  unfold memWrite
  rw [same_device]
  split <;> simp [State.recalling]

theorem rdtemp_recalling (reg : Byte) (s past : State) :
    rdtemp reg (s.recalling past) = (rdtemp reg s).recalling past := by
  have same_ready : (s.recalling past).ready = s.ready := rfl
  unfold rdtemp
  rw [same_ready, memRead_recalling]
  cases s.ready with
  | false => rfl
  | true => rcases memRead reg s with ⟨⟨_ | _⟩ | _, s1⟩ <;> rfl

theorem wrtemp_recalling (reg : Byte) (t : Int) (s past : State) :
    wrtemp reg t (s.recalling past) = (wrtemp reg t s).recalling past := by
  have same_ready : (s.recalling past).ready = s.ready := rfl
  unfold wrtemp
  rw [same_ready, memWrite_recalling]
  cases s.ready with
  | false => rfl
  | true =>
    cases inRange t with
    | false => rfl
    | true => rcases memWrite reg (msb (encodeTemp t)) (lsb (encodeTemp t)) s with ⟨⟨_ | _⟩ | _, s1⟩ <;> rfl

theorem constructionVerdict_recalling (man dev : Raw) (s past : State) :
    constructionVerdict man dev (s.recalling past) = (constructionVerdict man dev s).recalling past := by
  unfold constructionVerdict
  split <;> rfl

theorem verifyIdentity_recalling (s past : State) :
    verifyIdentity (s.recalling past) = (verifyIdentity s).recalling past := by
  unfold verifyIdentity
  rw [memRead_recalling]
  rcases memRead Config.regManuf s with ⟨⟨m0, m1⟩ | _, s1⟩
  · dsimp only
    rw [memRead_recalling]
    rcases memRead Config.regDevId s1 with ⟨⟨d0, d1⟩ | _, s2⟩
    · exact constructionVerdict_recalling _ _ s2 past
    · rfl
    · rfl
  · rfl
  · rfl

theorem exec_recalling {i : Instr} {s u : State} (past : State) (hu : exec i s = .next u) :
    exec i (s.recalling past) = .next (u.recalling past) := by
  cases i with
  | rdupr | rdlwr | rdcrt | rdamb => cases hu; exact congrArg _ (rdtemp_recalling _ s past)
  | wrupr t | wrlwr t | wrcrt t => cases hu; exact congrArg _ (wrtemp_recalling _ t s past)
  | verify => cases hu; exact congrArg _ (verifyIdentity_recalling s past)
  | dec | idcmp => cases hu; rfl
  | enc t =>
    cases hu
    simp only [exec, execEnc]
    split <;> rfl

theorem deliver_recalling (cw : CommandWord) (s past : State) :
    deliver cw (s.recalling past) = (deliver cw s).recalling past := by
  simp [deliver, State.recalling]

theorem resetEvent_recalling (rest : List HostInput) (s past : State) :
    resetEvent rest (s.recalling past) = (resetEvent rest s).recalling past := by
  simp [resetEvent, setReady, State.recalling]

/-- Settles O53: each of the four things a step can do commutes with recalling other records. -/
theorem stepReadsNoRecordOfThePast : Obligations.StepReadsNoRecordOfThePast := by
  intro s t past hstep
  obtain ⟨open_none, ⟨issued, rfl⟩ | ⟨rest, issued, rfl⟩ | ⟨cw, rest, e, issued, refuses, rfl⟩ |
    ⟨cw, rest, i, u, issued, decodes, hu, rfl⟩⟩ := step_next_cases hstep
  · exact step_of_nothing_issued open_none issued
  · rw [← resetEvent_recalling]
    exact step_of_reset open_none issued
  · rw [← deliver_recalling]
    exact step_of_reserved open_none issued refuses
  · rw [← deliver_recalling]
    exact step_of_command open_none issued decodes (exec_recalling past hu)

end Sys2Proof.Machine
end

section
/-! PROOFS. The memory family (R41, R44, R45, R50, R51, D25): what the bus and the device behind it do to a command, and what a
command does to them. Each way a transaction can go is said once, forward, as what the command then does (`exec_of_read_ends`,
`exec_of_read_never`, and so on); the rows of the tables, the unconstrained reads and the hung transactions are read off from
these. The legal traffic goes through the rows, and the register file's frame through what a transaction leaves of it. -/

namespace Sys2Proof.Machine

-- WHAT STOPS THE MACHINE, AND WHAT A STEP RECORDS

theorem step_of_waiting {s : State} {q : BusRequest} (waits : s.waiting = some q) :
    step s = .fault .transportNeverAnswers := by
  simp [step, waits]

/-- Outside a transaction every state steps, whatever the host has issued (R45, R53, R221). -/
theorem step_next_of_not_waiting {s : State} (open_none : s.waiting = none) : ∃ t, step s = .next t := by
  rcases issued : s.pending with _ | ⟨cw | _, rest⟩
  · exact ⟨_, step_of_nothing_issued open_none issued⟩
  · rcases decodes : decodeWord cw with e | i
    · exact ⟨_, step_of_reserved open_none issued decodes⟩
    · obtain ⟨u, hu⟩ := exec_next i (takeCommand rest s)
      exact ⟨_, step_of_command open_none issued decodes hu⟩
  · exact ⟨_, step_of_reset open_none issued⟩

/-- Settles O11. -/
theorem onlyAHungTransactionStopsTheMachine : Obligations.OnlyAHungTransactionStopsTheMachine :=
  fun _ => ⟨fun _ => step_of_waiting, step_next_of_not_waiting⟩

/-- Settles O43: with something issued, a step records one entry, which is a row of `Served`. -/
theorem everyStepIsARowOfTheTables : Obligations.EveryStepIsARowOfTheTables := by
  intro s t x rest issued hstep
  obtain ⟨nothing, -⟩ | ⟨y, issued', row⟩ := step_next_served hstep
  · cases issued.symm.trans nothing
  · cases issued.symm.trans issued'
    exact ⟨rfl, row⟩

-- LEGAL TRAFFIC

/-- An encoding leaves the flag bits of its first byte 0 (R83, R153). -/
theorem msb_closedRaw_flags (t : Int) : msb (closedRaw t) &&& 0xE0#8 = 0#8 := by
  have flags_of_lt : ∀ b : Byte, b.toNat < 32 → b &&& 0xE0#8 = 0#8 := by decide
  apply flags_of_lt
  rw [toNat_msb, closedRaw, BitVec.toNat_ofNat]
  omega

theorem legalEvent_of_readsRegister {i : Instr} {reg : Byte} (reads : ReadsRegister i reg) (r : ReadResult) :
    legalEvent (.read reg r) = true := by
  cases reads <;> rfl

theorem legalEvent_of_writesRegister {i : Instr} {reg : Byte} {t : Int} (writes : WritesRegister i reg t)
    (w : WriteResult) : legalEvent (.write reg (msb (closedRaw t)) (lsb (closedRaw t)) w) = true := by
  cases writes <;> simp [legalEvent, msb_closedRaw_flags]

/-- Every row of the tables holds legal transactions only (R50, R83). -/
theorem Answers.events_legal {i : Instr} {v w : Bool} {es : List BusEvent} {response : Option Response}
    (row : Answers i v es w response) : ∀ e ∈ es, legalEvent e = true := by
  cases row with
  | idcmp | dec | encInRange | encOutOfRange => simp
  | verifyFirstFails | verifySecondFails | verifyMatches | verifyDiffers => simp [legalEvent]
  | verifyFirstNeverEnds | verifySecondNeverEnds => simp [legalEvent]
  | readNotReady | readNeverEnds => simp
  | readFails _ reg reads => simp [legalEvent_of_readsRegister reads]
  | readEnds _ reg b0 b1 reads => simp [legalEvent_of_readsRegister reads]
  | writeNotReady | writeOutOfRange | writeNeverEnds => simp
  | writeFails _ reg t writes => simp [legalEvent_of_writesRegister writes]
  | writeEnds _ reg t writes => simp [legalEvent_of_writesRegister writes]

theorem Served.events_legal {v w : Bool} {d : Done} {es : List BusEvent} (served : Served v d es w) :
    ∀ e ∈ es, legalEvent e = true := by
  cases served with
  | reset | reserved => simp
  | answered _ cw i es r decodes row => exact row.events_legal
  | unanswered _ cw i es decodes row => exact row.events_legal

/-- Settles O49: the events a step adds are those of a row of the tables. -/
theorem stepKeepsTheTrafficLegal : Obligations.StepKeepsTheTrafficLegal := by
  intro s t legal hstep
  obtain ⟨-, rfl⟩ | ⟨x, -, d, es, -, events_eq, served⟩ := step_next_served hstep
  · exact legal
  · intro e he
    rw [events_eq, List.mem_append] at he
    exact he.elim (legal e) (served.events_legal e)

/-- Settles O50: after reset the record is empty. -/
theorem resetTrafficIsLegal : Obligations.ResetTrafficIsLegal :=
  fun _ he => absurd he List.not_mem_nil

-- WHAT A COMMAND DOES WHEN ITS TRANSACTION ENDS, AND WHEN IT NEVER ENDS

section
variable {i : Instr} {reg : Byte} {t : Int} {s : State} {d : Device}

theorem memRead_of_ends {r : ReadResult} (answer : Device.read Config.slaveAddr reg s.device = (.ends r, d)) :
    memRead reg s = (.ends r, { s with device := d, events := s.events ++ [.read reg r] }) := by
  rw [memRead, answer]

theorem memRead_of_never (never : Device.read Config.slaveAddr reg s.device = (.never, d)) :
    memRead reg s = (.never, { s with device := d, waiting := some (.read reg) }) := by
  rw [memRead, never]

/-- The response of a read accessor whose read ended with `r` (R128). -/
def readResponse : ReadResult → Response
  | .ok b0 b1 => tempResponse (decodeTemp (pair b0 b1))
  | .fail => .fail .busError 0x00#8

/-- With `READY = 0` an accessor is refused (R184). -/
theorem exec_of_not_ready (isGated : gated i = true) (not_ready : s.ready = false) :
    exec i s = .next (raise .notReady 0x00#8 s) := by
  rcases accessor_of_gated isGated with ⟨reg, reads⟩ | ⟨reg, t, writes⟩
  · rw [exec_of_readsRegister reads, rdtemp]
    simp [not_ready]
  · rw [exec_of_writesRegister writes, wrtemp]
    simp [not_ready]

/-- With `READY = 1` a read that ends decides what a read accessor does (R128). -/
theorem exec_of_read_ends (reads : ReadsRegister i reg) (ready : s.ready = true) {r : ReadResult}
    (answer : Device.read Config.slaveAddr reg s.device = (.ends r, d)) :
    exec i s = .next (respond (readResponse r) { s with device := d, events := s.events ++ [.read reg r] }) := by
  rw [exec_of_readsRegister reads, rdtemp, if_pos ready, memRead_of_ends answer]
  cases r <;> rfl

theorem exec_of_read_never (reads : ReadsRegister i reg) (ready : s.ready = true)
    (never : Device.read Config.slaveAddr reg s.device = (.never, d)) :
    exec i s = .next { s with device := d, waiting := some (.read reg) } := by
  rw [exec_of_readsRegister reads, rdtemp, if_pos ready, memRead_of_never never]

theorem exec_of_write_outOfRange (writes : WritesRegister i reg t) (ready : s.ready = true)
    (out : t < -4096 ∨ 4095 < t) : exec i s = .next (raise .valueOutOfRange 0x00#8 s) := by
  rw [exec_of_writesRegister writes, wrtemp, if_pos ready, inRange_eq_false.2 out]
  rfl

theorem exec_of_write_ends (writes : WritesRegister i reg t) (ready : s.ready = true) (lo : -4096 ≤ t) (hi : t ≤ 4095)
    {w : WriteResult}
    (answer : Device.write Config.slaveAddr reg (msb (encodeTemp t)) (lsb (encodeTemp t)) s.device = (.ends w, d)) :
    exec i s = .next (respond (writeResponse w)
      { s with device := d
               events := s.events ++ [.write reg (msb (encodeTemp t)) (lsb (encodeTemp t)) w] }) := by
  rw [exec_of_writesRegister writes, wrtemp_of_write_ends ready lo hi answer]

theorem exec_of_write_never (writes : WritesRegister i reg t) (ready : s.ready = true) (lo : -4096 ≤ t) (hi : t ≤ 4095)
    (never : Device.write Config.slaveAddr reg (msb (encodeTemp t)) (lsb (encodeTemp t)) s.device = (.never, d)) :
    exec i s = .next { s with device := d, waiting := some (.write reg (msb (encodeTemp t)) (lsb (encodeTemp t))) } := by
  rw [exec_of_writesRegister writes, wrtemp, if_pos ready, if_pos (inRange_eq_true.2 ⟨lo, hi⟩), memWrite, never]

theorem exec_verify_of_first_never (never : Device.read Config.slaveAddr Config.regManuf s.device = (.never, d)) :
    exec .verify s = .next { s with device := d, waiting := some (.read Config.regManuf) } := by
  rw [exec, execVerify, verifyIdentity, memRead_of_never never]

theorem exec_verify_of_first_fails (answer : Device.read Config.slaveAddr Config.regManuf s.device = (.ends .fail, d)) :
    exec .verify s =
      .next (constructionFails { s with device := d, events := s.events ++ [.read Config.regManuf .fail] }) := by
  rw [exec, execVerify, verifyIdentity, memRead_of_ends answer]

section
variable {m0 m1 : Byte} {d' : Device}
  (first : Device.read Config.slaveAddr Config.regManuf s.device = (.ends (.ok m0 m1), d))
include first

theorem exec_verify_of_second_never (never : Device.read Config.slaveAddr Config.regDevId d = (.never, d')) :
    exec .verify s = .next { s with
      device := d'
      events := s.events ++ [.read Config.regManuf (.ok m0 m1)]
      waiting := some (.read Config.regDevId) } := by
  rw [exec, execVerify, verifyIdentity, memRead_of_ends first]
  dsimp only
  rw [memRead_of_never never]

theorem exec_verify_of_second_fails (answer : Device.read Config.slaveAddr Config.regDevId d = (.ends .fail, d')) :
    exec .verify s = .next (constructionFails { s with
      device := d'
      events := s.events ++ [.read Config.regManuf (.ok m0 m1), .read Config.regDevId .fail] }) := by
  rw [exec, execVerify, verifyIdentity, memRead_of_ends first]
  dsimp only
  rw [memRead_of_ends answer]
  simp

/-- When both reads of `VERIFY` end in two bytes, the comparator decides (R105, R106). -/
theorem exec_verify_of_both_end {d0 d1 : Byte}
    (answer : Device.read Config.slaveAddr Config.regDevId d = (.ends (.ok d0 d1), d')) :
    exec .verify s = .next (constructionVerdict (pair m0 m1) (pair d0 d1) { s with
      device := d'
      events := s.events ++ [.read Config.regManuf (.ok m0 m1), .read Config.regDevId (.ok d0 d1)] }) := by
  rw [exec, execVerify, verifyIdentity, memRead_of_ends first]
  dsimp only
  rw [memRead_of_ends answer]
  simp

end

end

/-- The four read accessors, listed with their registers (R129 to R132). -/
theorem readsRegister_of_mem {x : Instr × Byte}
    (h : x ∈ [(Instr.rdupr, 0x02#8), (Instr.rdlwr, 0x03#8), (Instr.rdcrt, 0x04#8), (Instr.rdamb, 0x05#8)]) :
    ReadsRegister x.1 x.2 := by
  simp only [List.mem_cons, List.not_mem_nil, or_false] at h
  rcases h with rfl | rfl | rfl | rfl
  · exact .upper
  · exact .lower
  · exact .critical
  · exact .ambient

/-- The same state with an oracle behind the bus whose next answers to reads and to writes are these (R44, R54). -/
def State.withAnswers (s : State) (reads : List (Reply ReadResult)) (writes : List (Reply WriteResult)) : State :=
  { s with device := .oracle reads writes 0 }

/-- Settles O24: the device is the oracle whose one fixed answer is `a`. -/
theorem anyReadAnswerIsPossible : Obligations.AnyReadAnswerIsPossible := by
  intro s x hx ready a
  refine ⟨_, _, exec_of_read_ends (s := s.withAnswers [.ends a] []) (readsRegister_of_mem hx) ready rfl, rfl, ?_⟩
  cases a <;> rfl

/-- Settles O33. -/
theorem hungTransactionLeavesTheBlockInside : Obligations.HungTransactionLeavesTheBlockInside := by
  intro s d
  refine ⟨?_, ?_, ?_, ?_⟩
  · intro x hx ready never
    exact exec_of_read_never (readsRegister_of_mem hx) ready never
  · intro t x hx ready lo hi never
    exact exec_of_write_never (writesRegister_of_mem hx) ready lo hi never
  · exact exec_verify_of_first_never
  · intro m0 m1 d1 first never
    exact exec_verify_of_second_never first never

-- EVERY ROW OF THE TABLES CAN HAPPEN

/-- There is a device with which `i`, at `s`, causes the events `es`, leaves `READY = after` and the response `r`. -/
def CanHappen (s : State) (i : Instr) (es : List BusEvent) (after : Bool) (r : Option Response) : Prop :=
  ∃ (d : Device) (t : State), exec i { s with device := d } = .next t ∧
    t.events = s.events ++ es ∧ t.ready = after ∧ t.response = r

section
variable {s : State} {i : Instr} {reg : Byte} {t : Int}

/-- What changes the response alone happens whatever the device is. -/
theorem CanHappen.of_respond {r : Response} {v : Bool} (ready : s.ready = v) (hexec : exec i s = .next (respond r s)) :
    CanHappen s i [] v (some r) :=
  ⟨s.device, _, hexec, (List.append_nil _).symm, ready, rfl⟩

theorem CanHappen.of_read_ends (reads : ReadsRegister i reg) (ready : s.ready = true) (r : ReadResult) :
    CanHappen s i [.read reg r] true (some (readResponse r)) :=
  ⟨_, _, exec_of_read_ends (s := s.withAnswers [.ends r] []) reads ready rfl, rfl, ready, rfl⟩

theorem CanHappen.of_read_never (none_before : s.response = none) (reads : ReadsRegister i reg)
    (ready : s.ready = true) : CanHappen s i [] true none :=
  ⟨_, _, exec_of_read_never (s := s.withAnswers [.never] []) reads ready rfl,
    (List.append_nil _).symm, ready, none_before⟩

theorem CanHappen.of_write_ends (writes : WritesRegister i reg t) (ready : s.ready = true) (lo : -4096 ≤ t)
    (hi : t ≤ 4095) (w : WriteResult) :
    CanHappen s i [.write reg (msb (closedRaw t)) (lsb (closedRaw t)) w] true (some (writeResponse w)) := by
  rw [← encodeTemp_eq_closedRaw lo hi]
  exact ⟨_, _, exec_of_write_ends (s := s.withAnswers [] [.ends w]) writes ready lo hi rfl,
    rfl, ready, rfl⟩

theorem CanHappen.of_write_never (none_before : s.response = none) (writes : WritesRegister i reg t)
    (ready : s.ready = true) (lo : -4096 ≤ t) (hi : t ≤ 4095) : CanHappen s i [] true none :=
  ⟨_, _, exec_of_write_never (s := s.withAnswers [] [.never]) writes ready lo hi rfl,
    (List.append_nil _).symm, ready, none_before⟩

theorem CanHappen.of_verify_first_never (none_before : s.response = none) :
    CanHappen s .verify [] s.ready none :=
  ⟨_, _, exec_verify_of_first_never (s := s.withAnswers [.never] []) rfl,
    (List.append_nil _).symm, rfl, none_before⟩

theorem CanHappen.of_verify_first_fails (s : State) :
    CanHappen s .verify [.read Config.regManuf .fail] false (some (.fail .deviceNotFound Config.slaveAddr)) :=
  ⟨_, _, exec_verify_of_first_fails (s := s.withAnswers [.ends .fail] []) rfl, rfl, rfl, rfl⟩

theorem CanHappen.of_verify_second_never (none_before : s.response = none) (m0 m1 : Byte) :
    CanHappen s .verify [.read Config.regManuf (.ok m0 m1)] s.ready none :=
  ⟨_, _, exec_verify_of_second_never (s := s.withAnswers [.ends (.ok m0 m1), .never] []) rfl rfl,
    rfl, rfl, none_before⟩

theorem CanHappen.of_verify_second_fails (s : State) (m0 m1 : Byte) :
    CanHappen s .verify [.read Config.regManuf (.ok m0 m1), .read Config.regDevId .fail] false
      (some (.fail .deviceNotFound Config.slaveAddr)) :=
  ⟨_, _,
    exec_verify_of_second_fails (s := s.withAnswers [.ends (.ok m0 m1), .ends .fail] []) rfl rfl, rfl, rfl, rfl⟩

/-- With two identity words that match, `VERIFY` can end `OK`. -/
theorem CanHappen.of_verify_matches (s : State) {m0 m1 d0 : Byte} (d1 : Byte)
    (isMatch : idmatch (pair m0 m1) (pair d0 d1) = true) :
    CanHappen s .verify [.read Config.regManuf (.ok m0 m1), .read Config.regDevId (.ok d0 d1)] true
      (some .okUnit) := by
  have hexec := exec_verify_of_both_end (s := s.withAnswers [.ends (.ok m0 m1), .ends (.ok d0 d1)] []) rfl rfl
  rw [constructionVerdict, if_pos isMatch] at hexec
  exact ⟨_, _, hexec, rfl, rfl, rfl⟩

theorem CanHappen.of_verify_differs (s : State) {m0 m1 d0 d1 : Byte}
    (differs : ¬ idmatch (pair m0 m1) (pair d0 d1) = true) :
    CanHappen s .verify [.read Config.regManuf (.ok m0 m1), .read Config.regDevId (.ok d0 d1)] false
      (some (.fail .deviceNotFound Config.slaveAddr)) := by
  have hexec := exec_verify_of_both_end (s := s.withAnswers [.ends (.ok m0 m1), .ends (.ok d0 d1)] []) rfl rfl
  rw [constructionVerdict, if_neg differs] at hexec
  exact ⟨_, _, hexec, rfl, rfl, rfl⟩

end

theorem gated_of_readsRegister {i : Instr} {reg : Byte} (reads : ReadsRegister i reg) : gated i = true := by
  cases reads <;> rfl

theorem gated_of_writesRegister {i : Instr} {reg : Byte} {t : Int} (writes : WritesRegister i reg t) :
    gated i = true := by
  cases writes <;> rfl

/-- Settles O44: for each row the device is the oracle whose fixed answers are those of the row. -/
theorem everyRowOfTheTablesCanHappen : Obligations.EveryRowOfTheTablesCanHappen := by
  intro s i es after r none_before row
  change CanHappen s i es after r
  generalize ready : s.ready = v at row
  cases row with
  | idcmp man dev =>
    rw [← idmatch_eq_identityHolds]
    exact .of_respond ready rfl
  | dec raw =>
    rw [← tempResponse_decodeTemp]
    exact .of_respond ready rfl
  | encInRange t _ lo hi =>
    refine .of_respond ready ?_
    rw [exec, execEnc, if_pos (inRange_eq_true.2 ⟨lo, hi⟩), encodeTemp_eq_closedRaw lo hi]
  | encOutOfRange t _ out =>
    refine .of_respond ready ?_
    rw [exec, execEnc, inRange_eq_false.2 out]
    rfl
  | verifyFirstFails => exact .of_verify_first_fails s
  | verifySecondFails _ m0 m1 => exact .of_verify_second_fails s m0 m1
  | verifyMatches _ d1 => exact .of_verify_matches s d1 ((idmatch_pair _ _ _ d1).2 ⟨rfl, rfl, rfl⟩)
  | verifyDiffers _ m0 m1 d0 d1 differs => exact .of_verify_differs s (mt (idmatch_pair m0 m1 d0 d1).1 differs)
  | verifyFirstNeverEnds => exact ready ▸ .of_verify_first_never none_before
  | verifySecondNeverEnds _ m0 m1 => exact ready ▸ .of_verify_second_never none_before m0 m1
  | readNotReady _ reg reads =>
    exact .of_respond ready (exec_of_not_ready (gated_of_readsRegister reads) ready)
  | readFails _ reg reads => exact .of_read_ends reads ready .fail
  | readEnds _ reg b0 b1 reads =>
    rw [← tempResponse_decodeTemp]
    exact .of_read_ends reads ready (.ok b0 b1)
  | readNeverEnds _ reg reads => exact .of_read_never none_before reads ready
  | writeNotReady _ reg t writes =>
    exact .of_respond ready (exec_of_not_ready (gated_of_writesRegister writes) ready)
  | writeOutOfRange _ reg t writes out => exact .of_respond ready (exec_of_write_outOfRange writes ready out)
  | writeFails _ reg t writes lo hi => exact .of_write_ends writes ready lo hi .fail
  | writeEnds _ reg t writes lo hi => exact .of_write_ends writes ready lo hi .ok
  | writeNeverEnds _ reg t writes lo hi => exact .of_write_never none_before writes ready lo hi

-- THE REGISTER FILE'S FRAME

/-- A read leaves the register file as it was (D25). -/
theorem Device.eq_of_read_registerFile {slave reg : Byte} {m : Memory} {a : Reply ReadResult} {d : Device}
    (answer : Device.read slave reg (.registerFile m) = (a, d)) : d = .registerFile m := by
  cases answer
  rfl

/-- A write to the register file changes no byte but the two of its register (D25; log entry 7). -/
theorem read_registerFileWrite_other (slave reg b0 b1 : Byte) (m : Memory) {a : Nat} (first : a ≠ registerCell reg)
    (second : a ≠ registerCell reg + 1) :
    Memory.read (registerFileWrite slave reg b0 b1 m).2 a = Memory.read m a := by
  unfold registerFileWrite
  split
  · rw [Memory.read_write_other _ _ _ second, Memory.read_write_other _ _ _ first]
  · rfl

@[simp] theorem constructionVerdict_device (man dev : Raw) (s : State) :
    (constructionVerdict man dev s).device = s.device := by
  unfold constructionVerdict
  split <;> rfl

section
variable {s : State} {m : Memory} (file : s.device = .registerFile m)
include file

theorem rdtemp_device_of_registerFile (reg : Byte) : (rdtemp reg s).device = .registerFile m := by
  rcases rdtemp_cases reg s with ⟨-, e⟩ | ⟨-, d, hd, e⟩ | ⟨-, b0, b1, d, hd, e⟩ | ⟨-, d, hd, e⟩ <;> rw [e]
  · exact file
  all_goals exact Device.eq_of_read_registerFile (file ▸ hd)

theorem verifyIdentity_device_of_registerFile : (verifyIdentity s).device = .registerFile m := by
  have outcomes := verifyIdentity_cases s
  rw [file] at outcomes
  rcases outcomes with ⟨d, first, e⟩ | ⟨d, first, e⟩ | ⟨m0, m1, d, first, afterFirst⟩
  · rw [e]
    exact Device.eq_of_read_registerFile first
  · rw [e]
    exact Device.eq_of_read_registerFile first
  · cases Device.eq_of_read_registerFile first
    rcases afterFirst with ⟨d', second, e⟩ | ⟨d', second, e⟩ | ⟨d0, d1, d', second, e⟩ <;> rw [e]
    · exact Device.eq_of_read_registerFile second
    · exact Device.eq_of_read_registerFile second
    · rw [constructionVerdict_device]
      exact Device.eq_of_read_registerFile second

/-- A write accessor changes no byte of the register file but the two of its register (R51, D25). -/
theorem wrtemp_device_of_registerFile (reg : Byte) (t : Int) :
    ∃ m', (wrtemp reg t s).device = .registerFile m' ∧
      ∀ a, a ≠ registerCell reg → a ≠ registerCell reg + 1 → Memory.read m' a = Memory.read m a := by
  have unchanged : ∃ m', s.device = .registerFile m' ∧
      ∀ a, a ≠ registerCell reg → a ≠ registerCell reg + 1 → Memory.read m' a = Memory.read m a :=
    ⟨m, file, fun _ _ _ => rfl⟩
  rcases wrtemp_cases reg t s with ⟨-, e⟩ | ⟨-, -, e⟩ | ⟨-, -, w, d, hd, e⟩ | ⟨-, -, d, hd, e⟩ <;> rw [e]
  · exact unchanged
  · exact unchanged
  · rw [file] at hd
    cases hd
    exact ⟨_, rfl, fun a first second => read_registerFileWrite_other _ _ _ _ m first second⟩
  · rw [file] at hd
    cases hd

/-- A command that is no write accessor leaves the register file as it was (R51, D25). -/
theorem exec_device_of_registerFile {i : Instr} {t : State} (noWrite : ∀ reg x, ¬ WritesRegister i reg x)
    (hexec : exec i s = .next t) : t.device = .registerFile m := by
  cases i with
  | rdupr | rdlwr | rdcrt | rdamb => cases hexec; exact rdtemp_device_of_registerFile file _
  | wrupr x => exact absurd (.upper x) (noWrite _ _)
  | wrlwr x => exact absurd (.lower x) (noWrite _ _)
  | wrcrt x => exact absurd (.critical x) (noWrite _ _)
  | verify => cases hexec; exact verifyIdentity_device_of_registerFile file
  | dec | idcmp => cases hexec; exact file
  | enc x =>
    cases hexec
    split <;> exact file

end

/-- A write accessor names one register and one temperature (R156 to R158). -/
theorem WritesRegister.unique {i : Instr} {reg reg' : Byte} {t t' : Int} (writes : WritesRegister i reg t)
    (writes' : WritesRegister i reg' t') : reg = reg' ∧ t = t' := by
  cases writes <;> cases writes' <;> exact ⟨rfl, rfl⟩

/-- Settles O40. -/
theorem registerFileBytesElsewhereAreUnchanged : Obligations.RegisterFileBytesElsewhereAreUnchanged := by
  intro s t m i file hexec
  by_cases isWrite : ∃ reg x, WritesRegister i reg x
  · obtain ⟨reg, x, writes⟩ := isWrite
    rw [exec_of_writesRegister writes] at hexec
    cases hexec
    obtain ⟨m', file', frame⟩ := wrtemp_device_of_registerFile file reg x
    refine ⟨m', file', fun reg' x' writes' => ?_, fun noWrite => absurd writes (noWrite reg x)⟩
    obtain ⟨rfl, -⟩ := writes.unique writes'
    exact frame
  · have noWrite : ∀ reg x, ¬ WritesRegister i reg x := fun reg x writes => isWrite ⟨reg, x, writes⟩
    exact ⟨m, exec_device_of_registerFile file noWrite hexec, fun reg x writes => absurd writes (noWrite reg x),
      fun _ _ => rfl⟩

end Sys2Proof.Machine
end

section
/-! PROOFS. The encoding family (R71, R75, R77, R78, R81, R82, R84 to R86). Decoding is characterised once, by
`decodeWord_eq_ok_iff`: a word is the command `i` exactly when `i` is well formed and the bits `i` uses are those of its own
word. The round trips, the ignored bits and the opcode map are read off from it. -/

namespace Sys2Proof.Machine

-- WORDS MASKED FIELD BY FIELD

theorem commandWord_and (o o' : Byte) (a a' b b' : Raw) :
    commandWord o a b &&& commandWord o' a' b' = commandWord (o &&& o') (a &&& a') (b &&& b') := by
  have outer : commandWord o a b &&& commandWord o' a' b' = ((o ++ a) &&& (o' ++ a')) ++ (b &&& b') := BitVec.and_append
  rw [outer, BitVec.and_append]
  rfl

/-- Words are equal exactly when their three fields are (R75). -/
theorem commandWord_inj {o o' : Byte} {a a' b b' : Raw} :
    commandWord o a b = commandWord o' a' b' ↔ o = o' ∧ a = a' ∧ b = b' := by
  constructor
  · intro h
    exact ⟨by simpa using congrArg opcOf h, by simpa using congrArg operandA h, by simpa using congrArg operandB h⟩
  · rintro ⟨rfl, rfl, rfl⟩
    rfl

/-- A mask with whole fields kept or cleared, applied to a word (R77, R81). -/
theorem and_commandWord (cw : CommandWord) (o : Byte) (a b : Raw) :
    cw &&& commandWord o a b = commandWord (opcOf cw &&& o) (operandA cw &&& a) (operandB cw &&& b) := by
  conv_lhs => rw [← commandWord_fields cw]
  exact commandWord_and ..

/-- The mask of a command that uses no operand keeps the opcode alone. -/
theorem and_opcodeMask (cw : CommandWord) : cw &&& 0xFF00000000#40 = commandWord (opcOf cw) 0#16 0#16 := by
  have masked := and_commandWord cw (BitVec.allOnes 8) 0#16 0#16
  rwa [BitVec.and_allOnes, BitVec.and_zero, BitVec.and_zero] at masked

/-- The mask of a command that uses operand `A` keeps it beside the opcode. -/
theorem and_operandAMask (cw : CommandWord) :
    cw &&& 0xFFFFFF0000#40 = commandWord (opcOf cw) (operandA cw) 0#16 := by
  have masked := and_commandWord cw (BitVec.allOnes 8) (BitVec.allOnes 16) 0#16
  rwa [BitVec.and_allOnes, BitVec.and_allOnes, BitVec.and_zero] at masked

/-- The mask of a command that uses both operands keeps the word. -/
theorem and_fullMask (cw : CommandWord) :
    cw &&& 0xFFFFFFFFFF#40 = commandWord (opcOf cw) (operandA cw) (operandB cw) := by
  rw [commandWord_fields]
  exact BitVec.and_allOnes

@[simp] theorem opcOf_and_usedBits (cw : CommandWord) (i : Instr) : opcOf (cw &&& usedBits i) = opcOf cw := by
  cases i <;> simp [usedBits, and_opcodeMask, and_operandAMask, and_fullMask]

/-- A command's own word has its ignored bits clear (R85). -/
theorem encode_and_usedBits (i : Instr) : encode i &&& usedBits i = encode i := by
  cases i <;> simp [encode, usedBits, and_opcodeMask, and_operandAMask, and_fullMask]

-- WHICH WORDS ARE A COMMAND

/-- Settles O2: the decoded command's opcode and used operands are the word's own fields, and a temperature operand is the
container of what it reads as. -/
theorem encodeOfDecodeClearsIgnoredBits : Obligations.EncodeOfDecodeClearsIgnoredBits := by
  intro cw i decodes
  rcases decodeWord_ok_cases decodes with ⟨opc, rfl⟩ | ⟨opc, rfl⟩ | ⟨opc, rfl⟩ | ⟨opc, rfl⟩ | ⟨opc, rfl⟩ | ⟨opc, rfl⟩ |
    ⟨opc, rfl⟩ | ⟨opc, rfl⟩ | ⟨opc, rfl⟩ | ⟨opc, rfl⟩ | ⟨opc, rfl⟩ <;>
    simp only [Instr.wf, fitsOperand_sext16, usedBits, encode, and_opcodeMask, and_operandAMask, and_fullMask,
      operandOf_sext16, opc, and_self]

/-- The used bits give the opcode and the used operands, and those decide the command (R77, R81). -/
theorem decodeWord_of_and_usedBits {cw : CommandWord} {i : Instr} (wf : i.wf = true)
    (used : cw &&& usedBits i = encode i) : decodeWord cw = .ok i := by
  cases i with
  | rdupr | rdlwr | rdcrt | rdamb | verify =>
    rw [usedBits, encode, and_opcodeMask, commandWord_inj] at used
    simp [decodeWord, used]
  | wrupr t | wrlwr t | wrcrt t | enc t =>
    rw [usedBits, encode, and_operandAMask, commandWord_inj] at used
    simp [decodeWord, used, sext16_operandOf wf]
  | dec raw =>
    rw [usedBits, encode, and_operandAMask, commandWord_inj] at used
    simp [decodeWord, used]
  | idcmp man dev =>
    rw [usedBits, encode, and_fullMask, commandWord_inj] at used
    simp [decodeWord, used]

/-- A word is the command `i` exactly when a word can express `i` and the bits `i` uses are those of its own word
(R77, R78, R81). -/
theorem decodeWord_eq_ok_iff {cw : CommandWord} {i : Instr} :
    decodeWord cw = .ok i ↔ i.wf = true ∧ cw &&& usedBits i = encode i := by
  constructor
  · intro decodes
    obtain ⟨wf, used⟩ := encodeOfDecodeClearsIgnoredBits cw i decodes
    exact ⟨wf, used.symm⟩
  · rintro ⟨wf, used⟩
    exact decodeWord_of_and_usedBits wf used

/-- Settles O1: a command's own word has its ignored bits clear. -/
theorem decodeOfEncodeIsTheCommand : Obligations.DecodeOfEncodeIsTheCommand :=
  fun i wf => decodeWord_eq_ok_iff.mpr ⟨wf, encode_and_usedBits i⟩

/-- Settles O3: the used bits decide the command, and the state that has taken it no longer holds the word. -/
theorem ignoredOperandBitsNeverMatter : Obligations.IgnoredOperandBitsNeverMatter := by
  intro cw cw' i decodes agree
  obtain ⟨wf, used⟩ := decodeWord_eq_ok_iff.mp decodes
  have decodes' : decodeWord cw' = .ok i := decodeWord_eq_ok_iff.mpr ⟨wf, agree.symm.trans used⟩
  refine ⟨decodes', fun s rest open_none => ?_⟩
  obtain ⟨u, hu⟩ := exec_next i (takeCommand rest s)
  exact ⟨u, step_of_command open_none rfl decodes hu, step_of_command open_none rfl decodes' hu⟩

-- THE OPCODE MAP

/-- Every command has a row of the opcode map under its mnemonic, with its opcode (R77). -/
theorem opcodeField (i : Instr) : Laws.OpcodeField.Statement i := by
  cases i with
  | rdupr => exact Laws.OpcodeField.rdupr
  | rdlwr => exact Laws.OpcodeField.rdlwr
  | rdcrt => exact Laws.OpcodeField.rdcrt
  | rdamb => exact Laws.OpcodeField.rdamb
  | wrupr t => exact Laws.OpcodeField.wrupr t
  | wrlwr t => exact Laws.OpcodeField.wrlwr t
  | wrcrt t => exact Laws.OpcodeField.wrcrt t
  | verify => exact Laws.OpcodeField.verify
  | dec raw => exact Laws.OpcodeField.dec raw
  | enc t => exact Laws.OpcodeField.enc t
  | idcmp man dev => exact Laws.OpcodeField.idcmp man dev

theorem opcOf_encode_of_decodeWord {cw : CommandWord} {i : Instr} (decodes : decodeWord cw = .ok i) :
    opcOf (encode i) = opcOf cw := by
  obtain ⟨-, used⟩ := decodeWord_eq_ok_iff.mp decodes
  rw [← used, opcOf_and_usedBits]

/-- A row of the map is told by the opcode alone (R77). -/
theorem matchesWord_iff_opcOf {row : OpcodeRow} (listed : row ∈ opcodeTable) (cw : CommandWord) :
    row.matchesWord cw = true ↔ opcOf cw = opcOf row.wordMatch := by
  have form : ∀ row ∈ opcodeTable, row.mask = 0xFF00000000#40 ∧
      row.wordMatch = commandWord (opcOf row.wordMatch) 0#16 0#16 := by decide
  obtain ⟨mask_eq, match_eq⟩ := form row listed
  rw [OpcodeRow.matchesWord, beq_iff_eq, mask_eq, and_opcodeMask, match_eq]
  simp [commandWord_inj]

/-- Settles O4: the row of the command's opcode matches, and the opcodes of the map are distinct. -/
theorem everyCommandHasOneOpcodeRow : Obligations.EveryCommandHasOneOpcodeRow := by
  intro cw i decodes
  have distinct : ∀ row ∈ opcodeTable, ∀ other ∈ opcodeTable,
      opcOf other.wordMatch = opcOf row.wordMatch → other = row := by decide
  obtain ⟨-, row, listed, mnemonic_eq, opc_eq⟩ := opcodeField i
  rw [opcOf_encode_of_decodeWord decodes] at opc_eq
  refine ⟨row, listed, mnemonic_eq, (matchesWord_iff_opcOf listed cw).mpr opc_eq, fun other listed' matches' => ?_⟩
  have opc_eq' := (matchesWord_iff_opcOf listed' cw).mp matches'
  exact distinct row listed other listed' (opc_eq'.symm.trans opc_eq)

/-- Settles O5. -/
theorem writtenWordsDecode : Obligations.WrittenWordsDecode := by
  unfold Obligations.WrittenWordsDecode
  decide

-- RESERVED WORDS

/-- A defined opcode is told by its number, one of the eleven of the map (R77). -/
theorem mem_definedOpcodes_iff_toNat (opc : Byte) :
    opc ∈ definedOpcodes ↔ opc.toNat ∈ [0x02, 0x03, 0x04, 0x05, 0x12, 0x13, 0x14, 0x20, 0x30, 0x31, 0x32] :=
  (List.mem_map_of_injective (f := BitVec.toNat) fun _ _ => BitVec.eq_of_toNat_eq).symm

/-- Of the 256 opcodes the eleven of the map are defined, and so 245 are reserved (R82). -/
theorem reservedOpcodes_length :
    ((List.range 256).filter fun n => !(definedOpcodes.contains (BitVec.ofNat 8 n))).length = 245 := by
  have defined : ((List.range 256).filter fun n => definedOpcodes.contains (BitVec.ofNat 8 n)).Perm
      (definedOpcodes.map BitVec.toNat) := by
    have distinct : (definedOpcodes.map BitVec.toNat).Nodup := by decide
    rw [List.perm_ext_iff_of_nodup (List.nodup_range.filter _) distinct]
    intro n
    simp only [List.mem_filter, List.mem_range, List.contains_iff_mem, mem_definedOpcodes_iff_toNat, BitVec.toNat_ofNat]
    simp only [definedOpcodes, List.map_cons, List.map_nil, List.mem_cons, List.not_mem_nil, or_false,
      BitVec.reduceToNat]
    omega
  have parts := List.length_eq_length_filter_add (l := List.range 256) fun n =>
    definedOpcodes.contains (BitVec.ofNat 8 n)
  have eleven : (definedOpcodes.map BitVec.toNat).length = 11 := rfl
  simp only [List.length_range, defined.length_eq, eleven] at parts
  omega

/-- Every defined opcode is a command's, and every other is refused (R77, R82). -/
theorem exists_decodeWord_iff {cw : CommandWord} : (∃ i, decodeWord cw = .ok i) ↔ opcOf cw ∈ definedOpcodes := by
  constructor
  · rintro ⟨i, decodes⟩
    exact opcOf_mem_definedOpcodes decodes
  · intro defined
    rcases decodes : decodeWord cw with e | i
    · exact absurd defined (opcOf_not_mem_of_error decodes)
    · exact ⟨i, rfl⟩

/-- Settles O7: the reserved opcodes are the gaps of the map, and a word that carries one is refused by the decoder. -/
theorem reservedOpcodeIsIllegalCommand : Obligations.ReservedOpcodeIsIllegalCommand := by
  refine ⟨fun opc => ?_, reservedOpcodes_length, fun cw => exists_decodeWord_iff.mpr,
    fun s cw rest open_none issued reserved => ?_⟩
  · have bound := opc.isLt
    simp only [mem_definedOpcodes_iff_toNat, List.mem_cons, List.not_mem_nil, or_false]
    omega
  · rcases decodes : decodeWord cw with e | i
    · exact step_of_reserved open_none issued decodes
    · exact absurd (opcOf_mem_definedOpcodes decodes) reserved

-- THE DECODED TEMPERATURE IN ITS CONTAINERS

theorem decodeTemp_t (raw : Raw) : (decodeTemp raw).t = (f13 raw).toInt := by
  rw [decodeTemp_eq_closed]

theorem decodeTemp_mag (raw : Raw) : (decodeTemp raw).mag = (decodeTemp raw).t.natAbs := by
  rw [decodeTemp_eq_closed]

/-- A decoded temperature is in the representable range (R124). -/
theorem decodeTemp_t_inRange (raw : Raw) : -4096 ≤ (decodeTemp raw).t ∧ (decodeTemp raw).t ≤ 4095 := by
  have lo : -4096 ≤ (f13 raw).toInt := BitVec.le_toInt _
  have hi : (f13 raw).toInt < 4096 := BitVec.toInt_lt
  rw [decodeTemp_t]
  omega

theorem decodeTemp_t_eq_signed_mag (raw : Raw) : (decodeTemp raw).t =
    if (decodeTemp raw).neg then -((decodeTemp raw).mag : Int) else ((decodeTemp raw).mag : Int) := by
  rw [decodeTemp_eq]
  split
  · simp only [if_true]
    omega
  · rfl

/-- `MAG` is 4096 for one field only, that of -256.0 degrees C (R124). -/
theorem decodeTemp_mag_eq_4096_iff (raw : Raw) : (decodeTemp raw).mag = 4096 ↔ f13 raw = 0x1000#13 := by
  have range := decodeTemp_t_inRange raw
  have lowest : (0x1000#13).toInt = -4096 := by decide
  rw [decodeTemp_mag, ← BitVec.toInt_inj, ← decodeTemp_t, lowest]
  omega

/-- Settles O19: the range -4096 to 4095 fits both containers. -/
theorem containersHoldTheDecodedTemperature : Obligations.ContainersHoldTheDecodedTemperature := by
  intro raw
  obtain ⟨lo, hi⟩ := decodeTemp_t_inRange raw
  have t_fits : fitsOperand (decodeTemp raw).t = true := by
    simp only [fitsOperand, Bool.and_eq_true, decide_eq_true_eq]
    omega
  have mag_fits : (decodeTemp raw).mag < 2 ^ 13 := by
    rw [decodeTemp_mag]
    omega
  have mag_exact : (BitVec.ofNat 13 (decodeTemp raw).mag).toNat = (decodeTemp raw).mag := by
    rw [BitVec.toNat_ofNat, Nat.mod_eq_of_lt mag_fits]
  exact ⟨lo, hi, sext16_operandOf t_fits, mag_exact, decodeTemp_t_eq_signed_mag raw, decodeTemp_mag_eq_4096_iff raw⟩

/-- Settles O20: `T[15:4]` is the container's quotient by 16 as two's complement, `T[3:0]` its remainder. -/
theorem containerSplitsIntoDegreesAndSixteenths : Obligations.ContainerSplitsIntoDegreesAndSixteenths := by
  intro t
  have bound := t.isLt
  have whole : wholeDegrees t = t.toInt / 16 := by
    rw [wholeDegrees, BitVec.toInt_eq_toNat_cond, BitVec.toInt_eq_toNat_cond, BitVec.extractLsb'_toNat,
      Nat.shiftRight_eq_div_pow]
    split <;> split <;> omega
  have part : (sixteenthsOf t : Int) = t.toInt % 16 := by
    rw [sixteenthsOf, BitVec.toInt_eq_toNat_cond, BitVec.extractLsb'_toNat, Nat.shiftRight_zero]
    split <;> omega
  rw [whole]
  omega

/-- Settles O21: the temperature is the thirteen bits read as two's complement. -/
theorem decodeTellsApartExactlyTheThirteenBits : Obligations.DecodeTellsApartExactlyTheThirteenBits := by
  intro raw raw'
  rw [decodeTemp_t, decodeTemp_t]
  exact BitVec.toInt_inj

-- THE ASSEMBLER

/-- Settles O12: the reset event stands first in `CONSTRUCT`, and the word after it decodes as `VERIFY`. -/
theorem constructIsResetThenVerify : Obligations.ConstructIsResetThenVerify := by
  refine ⟨by decide, fun s rest open_none issued => ?_⟩
  have decodes : decodeWord 0x2000000000#40 = .ok .verify := decodeOfEncodeIsTheCommand .verify rfl
  obtain ⟨v, hv⟩ := exec_next .verify (takeCommand rest (resetEvent (.command 0x2000000000#40 :: rest) s))
  exact ⟨_, v, step_of_reset open_none issued, rfl, rfl, rfl, rfl, hv, step_of_command open_none rfl decodes hv⟩

theorem checkOperand_eq_some {t : Int} (fits : fitsOperand t = true) : checkOperand t = some t := by
  simp [checkOperand, fits]

/-- Settles O54: 0.0625 degrees are 625 ten-thousandths, which is one sixteenth. -/
theorem threeSpellingsOfATemperatureAgree : Obligations.ThreeSpellingsOfATemperatureAgree := by
  intro t fits
  refine ⟨checkOperand_eq_some fits, ?_, ?_, fun d noMultiple => ?_⟩
  · rw [TempLiteral.value, sext16_operandOf fits]
  · simp [TempLiteral.value, checkOperand_eq_some fits]
  · simp [TempLiteral.value, noMultiple]

/-- Settles O55. -/
theorem writtenLinesAssemble : Obligations.WrittenLinesAssemble := by
  unfold Obligations.WrittenLinesAssemble
  decide

end Sys2Proof.Machine
end

section
/-! PROOFS. The identity family (R101, R102, R104 to R106). The comparator is said three times over, by bytes, by masked words and
by numbers; `VERIFY` goes through the memory family's lemma for each way its two reads can end, and a verdict on two pairs of
bytes is written out once as a state. -/

namespace Sys2Proof.Machine

-- THE COMPARATOR

theorem idmatch_iff_bytes (man dev : Raw) :
    idmatch man dev = true ↔ msb man = 0x00#8 ∧ lsb man = 0x54#8 ∧ msb dev = 0x04#8 := by
  simp [idmatch, and_assoc]

theorem idmatch_iff_masked (man dev : Raw) :
    idmatch man dev = true ↔ man = 0x0054#16 ∧ dev &&& 0xFF00#16 = 0x0400#16 := by
  rw [idmatch_eq_identityHolds, identityHolds, Bool.and_eq_true, beq_iff_eq, beq_iff_eq]

/-- The words with a given first byte are the 256 numbers that start at that byte's multiple of 256. -/
theorem msb_eq_iff_toNat (raw : Raw) (b : Byte) :
    msb raw = b ↔ 256 * b.toNat ≤ raw.toNat ∧ raw.toNat ≤ 256 * b.toNat + 255 := by
  rw [← BitVec.toNat_inj, toNat_msb]
  omega

/-- Settles O13. -/
theorem idmatchComparesThreeBytes : Obligations.IdmatchComparesThreeBytes :=
  fun man dev => ⟨idmatch_iff_bytes man dev, idmatch_iff_masked man dev⟩

/-- Settles O14: the masked device word says that the first byte is 0x04. -/
theorem idmatchHoldsForOneManufacturerAndOneHighByte :
    Obligations.IdmatchHoldsForOneManufacturerAndOneHighByte := by
  intro man dev
  have device : dev &&& 0xFF00#16 = 0x0400#16 ↔ msb dev = 0x04#8 := (msb_eq_iff_masked dev 0x04#8).symm
  rw [idmatch_iff_masked, device]
  exact and_congr_right fun _ => msb_eq_iff_toNat dev 0x04#8

-- IDCMP AND VERIFY

/-- Settles O15. -/
theorem idcmpRespondsTheVerdict : Obligations.IdcmpRespondsTheVerdict := by
  refine ⟨fun man dev s => ⟨rfl, ?_⟩, ?_⟩
  · rw [encode, opcOf_commandWord]
  · decide

/-- The verdict on two pairs of bytes as one state: `READY` holds it, and the response tells it (R105). -/
theorem constructionVerdict_pair (m0 m1 d0 d1 : Byte) (s : State) :
    constructionVerdict (pair m0 m1) (pair d0 d1) s = { s with
      ready := decide (m0 = 0x00#8 ∧ m1 = 0x54#8 ∧ d0 = 0x04#8)
      response := some (if m0 = 0x00#8 ∧ m1 = 0x54#8 ∧ d0 = 0x04#8 then .okUnit
        else .fail .deviceNotFound Config.slaveAddr) } := by
  simp only [constructionVerdict, idmatch_pair]
  by_cases isMatch : m0 = 0x00#8 ∧ m1 = 0x54#8 ∧ d0 = 0x04#8
  · simp only [if_pos isMatch, decide_eq_true isMatch]
    rfl
  · simp only [if_neg isMatch, decide_eq_false isMatch]
    rfl

/-- Settles O16, by how the two reads end. -/
theorem verifyOutcomesByItsTwoReads : Obligations.VerifyOutcomesByItsTwoReads := by
  intro s
  refine ⟨fun d1 first => ?_, fun m0 m1 d1 first => ⟨fun d2 second => ?_, fun d0 e1 d2 second => ?_⟩⟩
  · exact exec_verify_of_first_fails first
  · exact exec_verify_of_second_fails first second
  · rw [exec_verify_of_both_end first second, constructionVerdict_pair]

end Sys2Proof.Machine
end

section
/-! PROOFS. The decode family (R121 to R123, R127, R128, R154). The document's formula is the decode branch by branch; the closed
forms come from the decode by the number of the thirteen data bits, which also gives the decode of an encoding. The threshold's round
trip reads that decode through the register file: the pair written is the pair a read of the same register gives. -/

namespace Sys2Proof.Machine

-- THE DECODE AND THE DOCUMENT'S FORMULA

theorem degrees_neg (t : Int) : degrees (-t) = -degrees t := by
  rw [degrees, degrees, Int.cast_neg, neg_div]

/-- The document's flag and result are `NEG` and `MAG` in degrees, in either branch of the decode (R121). -/
theorem documentDecode_eq (raw : Raw) :
    documentDecode (msb raw) (lsb raw) = ((decodeTemp raw).neg, degrees ((decodeTemp raw).mag : Int)) := by
  obtain ⟨-, -, nibble_eq⟩ := masked_byte (msb raw)
  have biased_le : (msb raw &&& Config.flagMask &&& Config.nibbleMask).toNat * 256 + (lsb raw).toNat ≤ Config.bias := by
    have low_lt := (lsb raw).isLt
    rw [nibble_eq, Config.bias]
    omega
  unfold documentDecode decodeTemp degrees
  dsimp only
  split
  · refine Prod.ext rfl ?_
    dsimp only
    rw [Int.cast_natCast, Nat.cast_sub biased_le]
    push_cast
    ring
  · refine Prod.ext rfl ?_
    push_cast
    ring

/-- The document's signed temperature is `T` in degrees (R122). -/
theorem documentSigned_documentDecode (raw : Raw) :
    documentSigned (documentDecode (msb raw) (lsb raw)) = degrees (decodeTemp raw).t := by
  rw [documentDecode_eq, documentSigned, decodeTemp_t_eq_signed_mag]
  split
  · rw [degrees_neg]
  · rfl

/-- Settles O17. -/
theorem decodeIsTheDocumentsFormula : Obligations.DecodeIsTheDocumentsFormula :=
  fun raw => ⟨documentDecode_eq raw, documentSigned_documentDecode raw⟩

-- THE CLOSED FORMS OF THE DECODE

/-- The flag bits have no effect on the decode (R123). -/
theorem decodeTemp_and_dataMask (raw : Raw) : decodeTemp (raw &&& 0x1FFF#16) = decodeTemp raw := by
  have masked : (raw &&& 0x1FFF#16).toNat = raw.toNat % 8192 := by
    rw [BitVec.toNat_and]
    exact Nat.and_two_pow_sub_one_eq_mod raw.toNat 13
  have sign : (raw &&& 0x1FFF#16).getLsbD 12 = raw.getLsbD 12 := by
    rw [getLsbD_signBit, getLsbD_signBit, masked, Nat.mod_mod]
  have data : f13 (raw &&& 0x1FFF#16) = f13 raw := by
    rw [← BitVec.toNat_inj, toNat_f13, toNat_f13, masked, Nat.mod_mod]
  rw [decodeTemp_eq_closed, decodeTemp_eq_closed, sign, data]

/-- `T` by its magnitude bits and its sign bit, which weighs -4096 (R123). -/
theorem decodeTemp_t_eq_magnitude_sub_sign (raw : Raw) :
    (decodeTemp raw).t = ((raw.extractLsb' 0 12).toNat : Int) - 4096 * ((raw.getLsbD 12).toNat : Int) := by
  have magnitude : (raw.extractLsb' 0 12).toNat = raw.toNat % 4096 := by
    rw [BitVec.extractLsb'_toNat, Nat.shiftRight_zero]
  rw [decodeTemp_t, toInt_f13, getLsbD_signBit, magnitude]
  split
  · next signed =>
    rw [decide_eq_true signed, Bool.toNat_true]
    omega
  · next unsigned =>
    rw [decide_eq_false unsigned, Bool.toNat_false]
    omega

/-- Settles O18. -/
theorem decodeIsThirteenBitSignExtension : Obligations.DecodeIsThirteenBitSignExtension := by
  intro raw
  have neg_eq : (decodeTemp raw).neg = raw.getLsbD 12 := by rw [decodeTemp_eq_closed]
  have container_eq : BitVec.ofInt 16 (decodeTemp raw).t = (f13 raw).signExtend 16 := by
    rw [decodeTemp_t, BitVec.signExtend]
  exact ⟨neg_eq, decodeTemp_t raw, decodeTemp_t_eq_magnitude_sub_sign raw, decodeTemp_mag raw, container_eq,
    (decodeTemp_and_dataMask raw).symm⟩

-- A THRESHOLD WRITTEN AND READ BACK

/-- The decode of an encoding gives back the temperature, with its sign and its magnitude (R154). -/
theorem decodeTemp_encodeTemp {t : Int} (lo : -4096 ≤ t) (hi : t ≤ 4095) :
    decodeTemp (encodeTemp t) = ⟨decide (t < 0), t.natAbs, t⟩ := by
  have number := encodeTemp_toNat lo hi
  rw [decodeTemp_eq]
  by_cases negative : t < 0
  · rw [if_pos (by omega), decide_eq_true negative, Reading.mk.injEq]
    exact ⟨rfl, by omega, by omega⟩
  · rw [if_neg (by omega), decide_eq_false negative, Reading.mk.injEq]
    exact ⟨rfl, by omega, by omega⟩

section
variable {reg : Byte} (stores : registerFileStores reg = true)
include stores

/-- A register that is stored to is one the register file has (D25). -/
theorem registerFileHas_of_stores : registerFileHas reg = true := by
  simp only [registerFileStores, Bool.or_eq_true, beq_iff_eq] at stores
  rcases stores with (rfl | rfl) | rfl <;> rfl

/-- The register file takes a write to a register it stores to (D25). -/
theorem registerFileWrite_of_stores (b0 b1 : Byte) (m : Memory) :
    registerFileWrite Config.slaveAddr reg b0 b1 m =
      (.ok, Memory.write (Memory.write m (registerCell reg) b0) (registerCell reg + 1) b1) :=
  if_pos ⟨rfl, stores⟩

/-- The pair of bytes written to a register is the pair read from it (D25). -/
theorem registerFileRead_registerFileWrite_same (b0 b1 : Byte) {m : Memory} (canonical : Memory.wf m = true) :
    registerFileRead Config.slaveAddr reg (registerFileWrite Config.slaveAddr reg b0 b1 m).2 = .ok b0 b1 := by
  have afterFirst := Memory.write_wf m (registerCell reg) b0 canonical
  rw [registerFileWrite_of_stores stores, registerFileRead, if_pos ⟨rfl, registerFileHas_of_stores stores⟩,
    Memory.read_write_other _ _ _ (Nat.ne_of_lt (Nat.lt_succ_self _)), Memory.read_write_same _ _ m 0 canonical,
    Memory.read_write_same _ _ _ 0 afterFirst]

end

/-- The three thresholds: one register each, which the register file stores to, a command to write it and one to read it. -/
theorem thresholdRegister_of_mem {t : Int} {x : Instr × Instr}
    (h : x ∈ [(Instr.wrupr t, Instr.rdupr), (Instr.wrlwr t, Instr.rdlwr), (Instr.wrcrt t, Instr.rdcrt)]) :
    ∃ reg, WritesRegister x.1 reg t ∧ ReadsRegister x.2 reg ∧ registerFileStores reg = true := by
  simp only [List.mem_cons, List.not_mem_nil, or_false] at h
  rcases h with rfl | rfl | rfl
  · exact ⟨_, .upper t, .upper, rfl⟩
  · exact ⟨_, .lower t, .lower, rfl⟩
  · exact ⟨_, .critical t, .critical, rfl⟩

/-- Settles O41: the read gives the encoding's two bytes, whose decode is the temperature. -/
theorem thresholdReadsBackFromTheReferenceDevice : Obligations.ThresholdReadsBackFromTheReferenceDevice := by
  intro s m t file canonical ready lo hi x hx
  obtain ⟨reg, writes, reads, stores⟩ := thresholdRegister_of_mem hx
  have written : Device.write Config.slaveAddr reg (msb (encodeTemp t)) (lsb (encodeTemp t)) s.device = (.ends .ok,
      .registerFile (registerFileWrite Config.slaveAddr reg (msb (encodeTemp t)) (lsb (encodeTemp t)) m).2) := by
    rw [file, Device.write, registerFileWrite_of_stores stores]
  refine ⟨_, _, exec_of_write_ends writes ready lo hi written, rfl, exec_of_read_ends reads ?_ rfl, ?_⟩
  · exact ready
  · rw [respond_response, registerFileRead_registerFileWrite_same stores _ _ canonical, readResponse, pair_msb_lsb,
      decodeTemp_encodeTemp lo hi, tempResponse]

-- DEC AND THE READ ACCESSORS

/-- Settles O22. -/
theorem decRespondsTheDecode : Obligations.DecRespondsTheDecode := by
  refine ⟨fun raw s => ⟨rfl, ?_⟩, fun raw => (decodeTemp_and_dataMask raw).symm, ?_⟩
  · rw [encode, opcOf_commandWord]
  · decide

/-- Settles O23. -/
theorem readAccessorsReadOnceAndDecode : Obligations.ReadAccessorsReadOnceAndDecode := by
  intro s x hx
  have reads := readsRegister_of_mem hx
  refine ⟨fun not_ready => ?_, fun ready => ⟨fun d answer => ?_, fun b0 b1 d answer => ?_⟩⟩
  · exact exec_of_not_ready (gated_of_readsRegister reads) not_ready
  · exact exec_of_read_ends reads ready answer
  · exact exec_of_read_ends reads ready answer

end Sys2Proof.Machine
end

section
/-! PROOFS. The encode family (R151 to R155, R159). The bytes and the closed forms of an encoding come from its number, `t`
modulo 8192; that a decode gives `t` back also says what its sign bit is. `ENC` and the write accessors go through the lemmas for
each way they can end. -/

namespace Sys2Proof.Machine

-- THE RANGE CHECK

theorem inRange_sext16_iff_toNat (a : Raw) : inRange (sext16 a) = true ↔ a.toNat < 4096 ∨ 61440 ≤ a.toNat := by
  have bound := a.isLt
  rw [inRange_eq_true, sext16, BitVec.toInt_eq_toNat_cond]
  split <;> omega

theorem topNibble_eq_iff_toNat (a : Raw) (n : BitVec 4) : a.extractLsb' 12 4 = n ↔ a.toNat / 4096 = n.toNat := by
  have bound := a.isLt
  rw [← BitVec.toNat_inj, BitVec.extractLsb'_toNat, Nat.shiftRight_eq_div_pow]
  omega

/-- Settles O25: on an operand both sides say that its number is below 4096 or from 61440 on. -/
theorem rangeCheckIsTheTopNibble : Obligations.RangeCheckIsTheTopNibble := by
  refine ⟨fun t => inRange_eq_true, fun a => ?_⟩
  have bound := a.isLt
  rw [inRange_sext16_iff_toNat, topNibble_eq_iff_toNat, topNibble_eq_iff_toNat, BitVec.toNat_ofNat, BitVec.toNat_ofNat]
  omega

-- THE ENCODE IN ITS CLOSED FORMS

theorem flagBits_eq_zero_iff (raw : Raw) : flagBits raw = 0#3 ↔ raw.toNat < 8192 := by
  have bound := raw.isLt
  rw [← BitVec.toNat_inj, flagBits, BitVec.extractLsb'_toNat, Nat.shiftRight_eq_div_pow, BitVec.toNat_ofNat]
  omega

/-- The data mask keeps a raw value's number modulo 8192 (R70). -/
theorem toNat_and_dataMask (raw : Raw) : (raw &&& 0x1FFF#16).toNat = raw.toNat % 8192 := by
  rw [BitVec.toNat_and]
  exact Nat.and_two_pow_sub_one_eq_mod raw.toNat 13

section
variable {t : Int} (lo : -4096 ≤ t) (hi : t ≤ 4095)
include lo hi

theorem flagBits_encodeTemp : flagBits (encodeTemp t) = 0#3 := by
  have number := encodeTemp_toNat lo hi
  rw [flagBits_eq_zero_iff]
  omega

theorem f13_encodeTemp : f13 (encodeTemp t) = f13 (operandOf t) := by
  have number := encodeTemp_toNat lo hi
  rw [← BitVec.toNat_inj, toNat_f13, toNat_f13, operandOf, BitVec.toNat_ofInt]
  omega

/-- The sign bit of an encoding is the flag its decode gives (R123, R153). -/
theorem signBit_encodeTemp : (encodeTemp t).getLsbD 12 = decide (t < 0) := by
  have neg_eq : (decodeTemp (encodeTemp t)).neg = (encodeTemp t).getLsbD 12 := by rw [decodeTemp_eq_closed]
  rw [← neg_eq, decodeTemp_encodeTemp lo hi]

end

/-- Settles O27. -/
theorem encodeIsModulo8192 : Obligations.EncodeIsModulo8192 := by
  refine ⟨fun t lo hi => ⟨encodeTemp_toNat lo hi, f13_encodeTemp lo hi, flagBits_encodeTemp lo hi, ?_⟩, by decide⟩
  rw [signBit_encodeTemp lo hi, decide_eq_true_iff]

/-- Settles O28. -/
theorem decodeOfEncodedTemperature : Obligations.DecodeOfEncodedTemperature := by
  intro t lo hi
  rw [decodeTemp_encodeTemp lo hi]
  exact ⟨rfl, rfl, rfl⟩

/-- Settles O29: both sides have the number of the thirteen data bits. -/
theorem encodeOfDecodedTemperature : Obligations.EncodeOfDecodedTemperature := by
  intro raw
  obtain ⟨lo, hi⟩ := decodeTemp_t_inRange raw
  have number := encodeTemp_toNat lo hi
  have residue : (decodeTemp raw).t % 8192 = raw.toNat % 8192 := by
    rw [decodeTemp_t, toInt_f13]
    split <;> omega
  rw [← BitVec.toNat_inj, toNat_and_dataMask]
  omega

-- THE ENCODE AND THE DOCUMENT'S FORMULA

theorem degrees_lt_zero_iff (t : Int) : degrees t < 0 ↔ t < 0 := by
  rw [degrees, div_lt_iff₀ (by norm_num), zero_mul, Int.cast_lt_zero]

/-- The document's biased value is `t` modulo 4096 in degrees: a negative `t` is raised by 256 degrees (R151). -/
theorem documentBiased_degrees {t : Int} (lo : -4096 ≤ t) (hi : t ≤ 4095) :
    documentBiased (degrees t) = degrees (t % 4096) := by
  simp only [documentBiased, degrees_lt_zero_iff]
  split
  · have residue : t % 4096 = t + 4096 := by omega
    rw [residue, degrees, degrees]
    push_cast
    ring
  · have residue : t % 4096 = t := by omega
    rw [residue]

/-- Sixteen degrees are 256 sixteenths. -/
theorem floor_degrees_div (t : Int) : (degrees t / 16).floor = t / 256 := by
  have quotient : degrees t / 16 = (t : Rat) / ((256 : Nat) : Rat) := by
    rw [degrees, div_div]
    norm_num
  rw [quotient]
  exact Rat.floor_intCast_div_natCast t 256

section
variable {t : Int} (lo : -4096 ≤ t) (hi : t ≤ 4095)
include lo hi

/-- The document's sign bit and high nibble are together the quotient of `t` modulo 8192 by 256 (R151). -/
theorem documentHighByte_degrees : documentHighByte (degrees t) = t % 8192 / 256 := by
  simp only [documentHighByte, documentBiased_degrees lo hi, floor_degrees_div, degrees_lt_zero_iff]
  split <;> omega

theorem documentLowByte_degrees : documentLowByte (degrees t) = ((t % 256 : Int) : Rat) := by
  have remainder : t % 256 = t % 4096 - 256 * (t % 4096 / 256) := by omega
  rw [documentLowByte, documentBiased_degrees lo hi, floor_degrees_div, degrees, remainder]
  push_cast
  ring

end

/-- Settles O26. -/
theorem encodeIsTheDocumentsFormula : Obligations.EncodeIsTheDocumentsFormula := by
  intro t lo hi
  obtain ⟨high, low⟩ := encodeTemp_bytes lo hi
  refine ⟨?_, ?_, flagBits_encodeTemp lo hi⟩
  · rw [documentHighByte_degrees lo hi, high]
  · rw [documentLowByte_degrees lo hi, ← low, Int.cast_natCast]

-- ENC AND THE WRITE ACCESSORS

theorem exec_enc_of_inRange {t : Int} (inside : -4096 ≤ t ∧ t ≤ 4095) (s : State) :
    exec (.enc t) s = .next (respond (.okRaw (encodeTemp t)) s) := by
  rw [exec, execEnc, if_pos (inRange_eq_true.2 inside)]

theorem exec_enc_of_outOfRange {t : Int} (outside : ¬ (-4096 ≤ t ∧ t ≤ 4095)) (s : State) :
    exec (.enc t) s = .next (raise .valueOutOfRange 0x00#8 s) := by
  rw [exec, execEnc, if_neg (mt inRange_eq_true.1 outside)]

/-- Settles O30. -/
theorem encRespondsTheEncoding : Obligations.EncRespondsTheEncoding := by
  refine ⟨fun t s => ⟨?_, ?_⟩, by decide⟩
  · by_cases inside : -4096 ≤ t ∧ t ≤ 4095
    · rw [exec_enc_of_inRange inside, if_pos inside]
      rfl
    · rw [exec_enc_of_outOfRange inside, if_neg inside]
      rfl
  · rw [encode, opcOf_commandWord]

/-- Settles O31. -/
theorem writeAccessorsCheckEncodeAndWriteOnce : Obligations.WriteAccessorsCheckEncodeAndWriteOnce := by
  intro s t x hx
  have writes := writesRegister_of_mem hx
  refine ⟨fun not_ready => ?_, fun ready outside => ?_, fun ready lo hi w d answer => ?_⟩
  · exact exec_of_not_ready (gated_of_writesRegister writes) not_ready
  · exact exec_of_write_outOfRange writes ready outside
  · exact exec_of_write_ends writes ready lo hi answer

end Sys2Proof.Machine
end

section
/-! PROOFS. The exceptions family (R184, R186 to R188, R200, R201). A response's `INFO` and the mode after a `VERIFY` come from
the row of `Served` that a step records, said once by `step_recorded`. A row that ends with `NotReady` or `ValueOutOfRange` holds
no transaction, so that its command is a bare `raise` in the state it was issued in. -/

namespace Sys2Proof.Machine

-- THE GATE AND THE PRECISE FAILURES

/-- `NotReady` stands in no row of a command that is not gated (R184, R191). -/
theorem mayRespond_notReady_of_not_gated {i : Instr} (not_gated : gated i = false) (info : Byte) :
    mayRespond i (.fail .notReady info) = false := by
  cases i with
  | verify | dec | enc | idcmp => rfl
  | rdupr | rdlwr | rdcrt | rdamb | wrupr | wrlwr | wrcrt => cases not_gated

/-- Settles O34: the gate stands before all else, and the other commands respond only with their rows. -/
theorem accessorsRequireReady : Obligations.AccessorsRequireReady := by
  refine ⟨fun i s isGated not_ready => exec_of_not_ready isGated not_ready,
    fun i s t info not_gated none_before hexec responds => ?_⟩
  have allowed := commandsRespondOnlyWithTheirRow i s t _ none_before hexec responds
  rw [mayRespond_notReady_of_not_gated not_gated] at allowed
  cases allowed

/-- A failing row leaves `READY` as it was, but for the one that `VERIFY` clears (R188). -/
theorem Answers.ready_of_fail {i : Instr} {v w : Bool} {es : List BusEvent} {c : Condition} {info : Byte}
    (row : Answers i v es w (some (.fail c info))) : w = if i = .verify then false else v := by
  split
  · next h =>
    subst h
    exact row.ready_of_verify
  · next h => exact row.ready_of_not_verify h

/-- Where a row ends with `NotReady` or `ValueOutOfRange`, the command raises that and does nothing else (R188, R190). -/
theorem exec_eq_raise_of_row {i : Instr} {s : State} {es : List BusEvent} {w : Bool} {c : Condition} {info : Byte}
    (row : Answers i s.ready es w (some (.fail c info))) (silent : c = .notReady ∨ c = .valueOutOfRange) :
    exec i s = .next (raise c info s) := by
  generalize ready_eq : s.ready = v at row
  cases row with
  | readNotReady _ reg reads => exact exec_of_not_ready (gated_of_readsRegister reads) ready_eq
  | writeNotReady _ reg t writes => exact exec_of_not_ready (gated_of_writesRegister writes) ready_eq
  | encOutOfRange t _ out => exact exec_enc_of_outOfRange (by omega) s
  | writeOutOfRange _ reg t writes out => exact exec_of_write_outOfRange writes ready_eq out
  | verifyFirstFails | verifySecondFails | verifyDiffers => simp at silent
  | readFails | writeFails => simp at silent

/-- Settles O38. -/
theorem failuresArePrecise : Obligations.FailuresArePrecise := by
  intro i s t c info none_before hexec responds
  cases exec_ran hexec with
  | responds es w d r row =>
    obtain rfl : r = .fail c info := by simpa using responds
    refine ⟨row.ready_of_fail, rfl, fun silent => ?_⟩
    have raised := hexec.symm.trans (exec_eq_raise_of_row row silent)
    rw [Host.Outcome.next.injEq] at raised
    rw [raised]
    exact ⟨rfl, rfl⟩
  | hangs es d q row => cases none_before.symm.trans responds

-- WHAT A STEP RECORDS

/-- The one entry a step adds to the history is a row of `Served`. -/
theorem step_recorded {s t : State} {d : Done} (hstep : step s = .next t) (recorded : t.history = s.history ++ [d]) :
    ∃ es, Served s.ready d es t.ready := by
  obtain ⟨-, rfl⟩ | ⟨x, -, d', es, history_eq, -, served⟩ := step_next_served hstep
  · simp at recorded
  · obtain rfl : d = d' := by simpa using recorded.symm.trans history_eq
    exact ⟨es, served⟩

/-- The slave address is the `INFO` of the rows that end with `DeviceNotFound`, and of no other (R187). -/
theorem Answers.info_eq {i : Instr} {v w : Bool} {es : List BusEvent} {r : Response}
    (row : Answers i v es w (some r)) : r.info = if r.status = 0x1#4 then 0x18#8 else 0x00#8 := by
  cases row with
  | verifyFirstFails | verifySecondFails | verifyDiffers => rfl
  | readNotReady | readFails | writeNotReady | writeOutOfRange | writeFails | encOutOfRange => rfl
  | idcmp | dec | encInRange | verifyMatches | readEnds | writeEnds => rfl

theorem Served.info_eq {v w : Bool} {cw : CommandWord} {es : List BusEvent} {r : Response}
    (served : Served v (.command cw r) es w) : r.info = if r.status = 0x1#4 then 0x18#8 else 0x00#8 := by
  cases served with
  | reserved => rfl
  | answered _ _ i _ _ decodes row => exact row.info_eq

/-- Settles O37: what a step records of a command is a reserved word's response or a row of the tables. -/
theorem infoIsTheSlaveAddressOnlyWithDeviceNotFound : Obligations.InfoIsTheSlaveAddressOnlyWithDeviceNotFound := by
  intro s t cw r hstep recorded
  obtain ⟨es, served⟩ := step_recorded hstep recorded
  exact served.info_eq

-- THE MODE

theorem mode_of_ready {s : State} (ready : s.ready = true) : s.mode = .verified := by
  rw [State.mode, if_pos ready]

theorem mode_of_not_ready {s : State} (not_ready : s.ready = false) : s.mode = .unverified := by
  simp [State.mode, not_ready]

theorem mode_congr {s t : State} (same : t.ready = s.ready) : t.mode = s.mode := by
  rw [State.mode, State.mode, same]

/-- After a `VERIFY` whose response is recorded, `READY` says whether that is `OK` (R106, R201). -/
theorem step_ready_of_verify {s t : State} {cw : CommandWord} {r : Response} (hstep : step s = .next t)
    (decodes : decodeWord cw = .ok .verify) (recorded : t.history = s.history ++ [.command cw r]) :
    t.ready = (r == .okUnit) := by
  obtain ⟨es, served⟩ := step_recorded hstep recorded
  rw [served.ready_eq_verdictAfter, verdictAfter_verify decodes]

/-- A step that changes `READY` takes a reset event or runs `VERIFY` (R20, R201). -/
theorem step_reset_or_verify_of_ready_ne {s t : State} (hstep : step s = .next t) (changed : t.ready ≠ s.ready) :
    (∃ rest, s.pending = .reset :: rest) ∨
      ∃ cw rest, s.pending = .command cw :: rest ∧ decodeWord cw = .ok .verify := by
  obtain ⟨-, ⟨-, rfl⟩ | ⟨rest, issued, -⟩ | ⟨cw, rest, e, -, -, rfl⟩ | ⟨cw, rest, i, u, issued, decodes, hu, rfl⟩⟩ :=
    step_next_cases hstep
  · exact absurd rfl changed
  · exact .inl ⟨rest, issued⟩
  · exact absurd rfl changed
  · obtain ⟨-, -, ready_kept, -⟩ := commandsLeaveTheRestUnchanged i _ u hu
    obtain rfl : i = .verify := not_imp_comm.1 ready_kept changed
    exact .inr ⟨cw, rest, issued, decodes⟩

/-- Settles O42. -/
theorem onlyResetAndVerifyChangeTheMode : Obligations.OnlyResetAndVerifyChangeTheMode := by
  intro s t hstep
  refine ⟨fun rest issued => ?_, fun cw rest issued decodes => ⟨fun recorded => ?_, fun info recorded => ?_⟩,
    fun changed => ?_⟩
  · obtain ⟨open_none, -⟩ := step_next_cases hstep
    rw [step_of_reset open_none issued] at hstep
    cases hstep
    rfl
  · exact mode_of_ready (step_ready_of_verify hstep decodes recorded)
  · exact mode_of_not_ready (step_ready_of_verify hstep decodes recorded)
  · exact step_reset_or_verify_of_ready_ne hstep (mt mode_congr changed)

end Sys2Proof.Machine
end

section
/-! PROOFS. The reset and hazards family (R220, R221): the two steps that run no command, taking a reset event and waiting. -/

namespace Sys2Proof.Machine

/-- The whole state a reset event leaves (R220). -/
theorem resetEvent_eq (rest : List HostInput) (s : State) :
    resetEvent rest s = { s with ready := false, pending := rest, history := s.history ++ [.reset] } := rfl

/-- Settles O8. -/
theorem resetEventClearsReadyOnly : Obligations.ResetEventClearsReadyOnly := by
  intro s rest open_none issued
  rw [step_of_reset open_none issued, resetEvent_eq]

/-- Settles O10. -/
theorem stepWaitsForACommand : Obligations.StepWaitsForACommand :=
  fun _ => step_of_nothing_issued

end Sys2Proof.Machine
end

section
/-! PROOFS. The register file's canonical form (log entry 7): a device that answers a transaction keeps it, so every command does,
and no other step touches the device. -/

namespace Sys2Proof.Machine

/-- The device that is left by a read is canonical again, whether the read ends or not. -/
theorem Device.wf_of_read_eq {slave reg : Byte} {d d' : Device} {a : Reply ReadResult} (canonical : d.wf = true)
    (answer : Device.read slave reg d = (a, d')) : d'.wf = true := by
  simpa [answer] using Device.read_wf slave reg d canonical

/-- The device that is left by a write is canonical again, whether the write ends or not. -/
theorem Device.wf_of_write_eq {slave reg b0 b1 : Byte} {d d' : Device} {a : Reply WriteResult} (canonical : d.wf = true)
    (answer : Device.write slave reg b0 b1 d = (a, d')) : d'.wf = true := by
  simpa [answer] using Device.write_wf slave reg b0 b1 d canonical

section
variable {s : State} (canonical : s.device.wf = true)
include canonical

theorem rdtemp_device_wf (reg : Byte) : (rdtemp reg s).device.wf = true := by
  rcases rdtemp_cases reg s with ⟨-, e⟩ | ⟨-, d, answer, e⟩ | ⟨-, b0, b1, d, answer, e⟩ | ⟨-, d, answer, e⟩ <;> rw [e]
  · exact canonical
  all_goals exact Device.wf_of_read_eq canonical answer

theorem wrtemp_device_wf (reg : Byte) (t : Int) : (wrtemp reg t s).device.wf = true := by
  rcases wrtemp_cases reg t s with ⟨-, e⟩ | ⟨-, -, e⟩ | ⟨-, -, w, d, answer, e⟩ | ⟨-, -, d, answer, e⟩ <;> rw [e]
  · exact canonical
  · exact canonical
  all_goals exact Device.wf_of_write_eq canonical answer

/-- The second read of `VERIFY` meets the device that the first one left (R105, R106). -/
theorem verifyIdentity_device_wf : (verifyIdentity s).device.wf = true := by
  rcases verifyIdentity_cases s with ⟨d, first, e⟩ | ⟨d, first, e⟩ | ⟨m0, m1, d, first, afterFirst⟩
  · rw [e]
    exact Device.wf_of_read_eq canonical first
  · rw [e]
    exact Device.wf_of_read_eq canonical first
  · have between := Device.wf_of_read_eq canonical first
    rcases afterFirst with ⟨d', second, e⟩ | ⟨d', second, e⟩ | ⟨d0, d1, d', second, e⟩ <;> rw [e]
    · exact Device.wf_of_read_eq between second
    · exact Device.wf_of_read_eq between second
    · rw [constructionVerdict_device]
      exact Device.wf_of_read_eq between second

theorem exec_device_wf {i : Instr} {t : State} (hexec : exec i s = .next t) : t.device.wf = true := by
  cases i with
  | rdupr | rdlwr | rdcrt | rdamb => cases hexec; exact rdtemp_device_wf canonical _
  | wrupr x | wrlwr x | wrcrt x => cases hexec; exact wrtemp_device_wf canonical _ x
  | verify => cases hexec; exact verifyIdentity_device_wf canonical
  | dec | idcmp => cases hexec; exact canonical
  | enc x =>
    cases hexec
    split <;> exact canonical

end

/-- Settles O51: of the four things a step can do, only running a command reaches the device. -/
theorem stepKeepsTheDeviceCanonical : Obligations.StepKeepsTheDeviceCanonical := by
  intro s t canonical hstep
  obtain ⟨-, ⟨-, rfl⟩ | ⟨rest, -, rfl⟩ | ⟨cw, rest, e, -, -, rfl⟩ | ⟨cw, rest, i, u, -, -, hu, rfl⟩⟩ :=
    step_next_cases hstep
  · exact canonical
  · exact canonical
  · exact canonical
  · rw [deliver_device]
    exact exec_device_wf (s := takeCommand rest s) canonical hu

end Sys2Proof.Machine
end
